-- ==== Sys2Proof/Word.lean ====
section
/-! DEFINITION. The words of the B58KC unit: bytes, 16-bit and 256-bit register values, byte strings
(spec 00_scope section 6, 10_state R11, R15, 20_memory R30, R37). -/

namespace Sys2Proof

/-- A byte, "a natural in [0, 255]" (00_scope section 6.1). -/
abbrev Byte := BitVec 8

/-- A 16-bit register or a command word (10_state section 6, 30_encoding R45). -/
abbrev Word16 := BitVec 16

/-- A 256-bit register, `PX` or `PY` (10_state R11). -/
abbrev Word256 := BitVec 256

/-- A byte string, first byte leftmost, most significant when read as an integer (00_scope section 6.2,
20_memory R35). Base58Strings, public-key bytes, addresses and WIF strings are byte strings too
(10_state R21). -/
abbrev ByteString := List Byte

end Sys2Proof
end

