-- ==== Sys2Proof/Config.lean ====
section
/-! DEFINITION. The parameters of the unit (spec 00_scope section 4, rules R4 to R8), fixed for the life of
the machine, and the free values the spec leaves open. None of this is state. -/

namespace Sys2Proof

/-- Curve parameters (00_scope R4): field prime `P`, coefficients `A` and `B`. -/
structure Curve where
  p : Nat
  a : Nat
  b : Nat
deriving DecidableEq, Repr

/-- Everything the unit takes as configuration (00_scope R4 to R7): the curve, the alphabet, the three
collaborator functions and the two buffer capacities. -/
structure Params where
  curve : Curve
  /-- `ALPHABET` (R5): the character byte of digit value `i` at index `i`. -/
  alphabet : ByteString
  /-- `SHA256 : ByteString → 32 bytes` (R6). -/
  sha256 : ByteString → Vector Byte 32
  /-- `RIPEMD160 : ByteString → 20 bytes` (R6). -/
  ripemd160 : ByteString → Vector Byte 20
  /-- `scalarMult : integer → CurvePoint` (R6), a pair of values below `2^256` (92 D4). -/
  scalarMult : Nat → Word256 × Word256
  /-- `IBUF_CAP` (R7). -/
  ibufCap : Nat
  /-- `OBUF_CAP` (R7). -/
  obufCap : Nat

namespace Config

/-- secp256k1, the default curve of 00_scope R4 (`P = 2^256 − 2^32 − 977`, `A = 0`, `B = 7`).
PRESUMED: the spec marks the numbers as general knowledge; log entry 1. -/
def curve : Curve where
  p := 2 ^ 256 - 2 ^ 32 - 977
  a := 0
  b := 7

/-- The default alphabet of 00_scope R5 as the bytes tabulated in 40_base58check R61: digits `1` to `9`,
upper case without `I` and `O`, lower case without `l`.
PRESUMED: order and ASCII codes are the spec's general knowledge; log entry 2. -/
def alphabet : ByteString :=
  [0x31, 0x32, 0x33, 0x34, 0x35, 0x36, 0x37, 0x38, 0x39]
  ++ [0x41, 0x42, 0x43, 0x44, 0x45, 0x46, 0x47, 0x48, 0x4A, 0x4B, 0x4C, 0x4D, 0x4E]
  ++ [0x50, 0x51, 0x52, 0x53, 0x54, 0x55, 0x56, 0x57, 0x58, 0x59, 0x5A]
  ++ [0x61, 0x62, 0x63, 0x64, 0x65, 0x66, 0x67, 0x68, 0x69, 0x6A, 0x6B, 0x6D, 0x6E]
  ++ [0x6F, 0x70, 0x71, 0x72, 0x73, 0x74, 0x75, 0x76, 0x77, 0x78, 0x79, 0x7A]

/-- The `SHA256` collaborator (00_scope R6): only its result length is known; log entry 4. -/
opaque sha256 : ByteString → Vector Byte 32

/-- The `RIPEMD160` collaborator (00_scope R6, 93 U-S1): only its result length is known; log entry 4. -/
opaque ripemd160 : ByteString → Vector Byte 20

/-- The `scalarMult` collaborator (00_scope R6, 92 D4): a total function to a pair of 256-bit values,
nothing else known, at the point at infinity neither (91 N11, 93 U7); log entry 4. -/
opaque scalarMult : Nat → Word256 × Word256

/-- The parameters of this hardware. The capacities are the defaults of 00_scope R7; log entry 3. -/
def params : Params where
  curve := curve
  alphabet := alphabet
  sha256 := sha256
  ripemd160 := ripemd160
  scalarMult := scalarMult
  ibufCap := 128
  obufCap := 264

/-- Free value: the byte that stands in `OBUF` at an index outside the result ("any value", 20_memory R34,
60_exceptions R116), by the number of the completion's draw and the index; log entry 7. -/
opaque scratchByte : Nat → Nat → Byte

/-- Free value: the "any byte" that a host read of `OBUF[i]` with `i ≥ OLEN` returns (20_memory R34, R43),
by the number of the draw; log entry 8. -/
opaque drawnByte : Nat → Byte

/-- Address version prefix (00_scope R8). -/
abbrev addressVersion : Byte := 0x00
/-- WIF version prefix (00_scope R8). -/
abbrev wifVersion : Byte := 0x80
/-- WIF compression marker (00_scope R8). -/
abbrev wifCompressed : Byte := 0x01
/-- Marker byte of a compressed public key with even Y (00_scope R8). -/
abbrev markerEven : Byte := 0x02
/-- Marker byte of a compressed public key with odd Y (00_scope R8). -/
abbrev markerOdd : Byte := 0x03
/-- Marker byte of an uncompressed public key (00_scope R8). -/
abbrev markerUncompressed : Byte := 0x04
/-- Length of the checksum in bytes (00_scope R8). -/
abbrev checksumLength : Nat := 4
/-- Length of a secret and of a coordinate in bytes (00_scope R8). -/
abbrev fieldLength : Nat := 32
/-- Length of compressed public-key bytes (00_scope R8). -/
abbrev compressedLength : Nat := 33
/-- Length of uncompressed public-key bytes (00_scope R8). -/
abbrev uncompressedLength : Nat := 65
/-- The radix of the text form (00_scope R8). -/
abbrev radix : Nat := 58

end Config
end Sys2Proof
end

