-- ==== Sys2Proof/Syntax.lean ====
section
/-! DEFINITION. The instruction set: the twelve commands of spec 30_encoding R48, one constructor for each
row of spec/opcode_table.json; and the access primitives of the host (20_memory R43). -/

namespace Sys2Proof

/-- A command (30_encoding R48). Every operand but the flag `C` is implicit (R47), and `C` is an operand of
`PT2PK`, `RECY`, `WIFENC` and `SEC2PK` only (R46). -/
inductive Instr where
  /-- `B58ENC`: base-58 encode (40_base58check R67). -/
  | b58enc
  /-- `B58DEC`: base-58 decode (40_base58check R68). -/
  | b58dec
  /-- `B58CENC`: checked encode (40_base58check R71). -/
  | b58cenc
  /-- `B58CDEC`: checked decode (40_base58check R72). -/
  | b58cdec
  /-- `PT2PK`: point to public-key bytes, `C` = compressed (41_keypoint R83). -/
  | pt2pk (c : Bool)
  /-- `RECY`: recover Y, `C` = wantOdd (41_keypoint R85). -/
  | recy (c : Bool)
  /-- `PK2PT`: public-key bytes to point (41_keypoint R88). -/
  | pk2pt
  /-- `HASH160`: hash-160 of the input (42_derivation R96). -/
  | hash160
  /-- `ADDR`: address from public-key bytes (42_derivation R97). -/
  | addr
  /-- `WIFENC`: WIF string from a secret, `C` = compressed (42_derivation R98). -/
  | wifenc (c : Bool)
  /-- `WIFDEC`: secret from a WIF string (42_derivation R99). -/
  | wifdec
  /-- `SEC2PK`: public-key bytes from a secret, `C` = compressed (42_derivation R100). -/
  | sec2pk (c : Bool)
deriving DecidableEq, Repr

/-- The commands in the order of the opcode map, each flag value by itself: the sixteen of 30_encoding R48. -/
def Instr.all : List Instr :=
  [.b58enc, .b58dec, .b58cenc, .b58cdec, .pt2pk false, .pt2pk true, .recy false, .recy true]
  ++ [.pk2pt, .hash160, .addr, .wifenc false, .wifenc true, .wifdec, .sec2pk false, .sec2pk true]

/-- The registers of the host interface (10_state section 6). -/
inductive HostReg where
  | cmd | status | ilen | olen | px | py
deriving DecidableEq, Repr

/-- A host access primitive (20_memory R43). Registers are named by number and a written value is a natural,
so that the accesses R43 refuses can be written down too. -/
inductive HostAccess where
  /-- `HostRead(r)`. -/
  | read (r : Nat)
  /-- `HostWrite(r, v)`; with `r` the number of `CMD` it issues the command word `v`. -/
  | write (r : Nat) (v : Nat)
  /-- `HostWriteIBUF(i, b)`. -/
  | writeIbuf (i : Nat) (b : Byte)
  /-- `HostReadIBUF(i)`. -/
  | readIbuf (i : Nat)
  /-- `HostReadOBUF(i)`. -/
  | readObuf (i : Nat)
deriving DecidableEq, Repr

end Sys2Proof
end

