-- ==== Sys2Proof/WellFormed.lean ====
section
/-! DEFINITION. What is well formed: commands, command words (spec 30_encoding R49), host accesses
(20_memory R43) and parameter sets (00_scope R4, R5, R7). -/

namespace Sys2Proof

/-- A well-formed command is one of the sixteen of 30_encoding R48. `Instr` has a flag only where the spec
gives one, so no term of it is ill formed (proved in Laws/Coding.lean). -/
abbrev Instr.wf (i : Instr) : Prop := i ∈ Instr.all

/-- The twelve opcodes (30_encoding R48). -/
def opcodes : List Nat := [0x01, 0x02, 0x03, 0x04, 0x10, 0x11, 0x12, 0x20, 0x21, 0x22, 0x23, 0x24]

/-- The opcodes whose command has the flag operand: `PT2PK`, `RECY`, `WIFENC`, `SEC2PK` (30_encoding R46). -/
def flagOpcodes : List Nat := [0x10, 0x11, 0x22, 0x24]

/-- A legal command word (30_encoding R49): `w[15:9] = 0`, `w[7:0]` one of the twelve opcodes, and `w[8] = 0`
unless the command has a flag. -/
abbrev legalWord (w : Word16) : Prop :=
  w.toNat / 2 ^ 9 = 0 ∧ w.toNat % 2 ^ 8 ∈ opcodes ∧
    (w.getLsbD 8 = true → w.toNat % 2 ^ 8 ∈ flagOpcodes)

/-- A host access that names something that exists (20_memory R43): a register number below 6, an index inside the
buffer, and a value that fits `CMD`, `ILEN`, `PX` or `PY` (registers 0, 2, 4, 5). A write to `STATUS` or `OLEN`
(registers 1, 3) has no effect, whatever its value. -/
def HostAccess.wf (c : Params) : HostAccess → Bool
  | .read r => decide (r < 6)
  | .write 0 v | .write 2 v => decide (v < 2 ^ 16)
  | .write 4 v | .write 5 v => decide (v < 2 ^ 256)
  | .write r _ => r == 1 || r == 3
  | .writeIbuf i _ => decide (i < c.ibufCap)
  | .readIbuf i => decide (i < c.ibufCap)
  | .readObuf i => decide (i < c.obufCap)

/-- The constraints on the curve (00_scope R4): `P` an odd prime, `P ≡ 3 (mod 4)`, `P < 2^256`, `A` and `B`
below `P`. (A prime that is 3 modulo 4 is odd.) -/
structure Curve.wf (c : Curve) : Prop where
  prime : c.p.Prime
  mod4 : c.p % 4 = 3
  size : c.p < 2 ^ 256
  a_lt : c.a < c.p
  b_lt : c.b < c.p

/-- The part of `Curve.wf` that a computation can check: all of it but the primality of `P`. -/
abbrev Curve.ranges (c : Curve) : Prop :=
  c.p % 4 = 3 ∧ c.p < 2 ^ 256 ∧ c.a < c.p ∧ c.b < c.p

/-- The constraint on the alphabet (00_scope R5): exactly 58 distinct characters. -/
abbrev alphabetWf (al : ByteString) : Prop := al.length = Config.radix ∧ al.Nodup

/-- The constraints on the buffer capacities (00_scope R7). -/
abbrev capacitiesWf (ibufCap obufCap : Nat) : Prop :=
  1 ≤ ibufCap ∧ ibufCap ≤ 65535 ∧ 2 * (ibufCap + 4) ≤ obufCap ∧ 65 ≤ obufCap ∧ obufCap ≤ 65535

/-- A legal parameter set (00_scope R4, R5, R7); any other is outside the spec (93 U10). -/
structure Params.wf (c : Params) : Prop where
  curve : c.curve.wf
  alphabet : alphabetWf c.alphabet
  capacities : capacitiesWf c.ibufCap c.obufCap

end Sys2Proof
end

