-- ==== Sys2Proof/Decode.lean ====
section
/-! DEFINITION. Decoding a command word (spec 30_encoding R50) and, after it, encoding a command (R46). Both
are total; a word is rejected under a name that says which test of R49 it fails. -/

namespace Sys2Proof

/-- The field `OP` of a command word, bits 7:0 (30_encoding R46). -/
def opField (w : Word16) : Nat := w.toNat % 256

/-- The field `C` of a command word, bit 8 (30_encoding R46). -/
def flagField (w : Word16) : Bool := w.getLsbD 8

/-- The field `RSV` of a command word, bits 15:9 (30_encoding R46). -/
def rsvField (w : Word16) : Nat := w.toNat / 512

/-- Why a command word is illegal (30_encoding R49, 60_exceptions R117): "a reserved bit 15:9 is set, the
opcode is not one of the twelve, or C = 1 on a command without a flag". -/
inductive DecodeReject where
  | reservedBits
  | unknownOpcode
  | flagNotAllowed
deriving DecidableEq, Repr

/-- A command without a flag: its word must have `C = 0` (30_encoding R50). -/
def decodeFlagless (flag : Bool) (i : Instr) : Except DecodeReject Instr :=
  if flag then .error .flagNotAllowed else .ok i

/-- `decode` of 30_encoding R50. -/
def decode (w : Word16) : Except DecodeReject Instr :=
  if rsvField w ≠ 0 then .error .reservedBits
  else
    match opField w with
    | 0x01 => decodeFlagless (flagField w) .b58enc
    | 0x02 => decodeFlagless (flagField w) .b58dec
    | 0x03 => decodeFlagless (flagField w) .b58cenc
    | 0x04 => decodeFlagless (flagField w) .b58cdec
    | 0x10 => .ok (.pt2pk (flagField w))
    | 0x11 => .ok (.recy (flagField w))
    | 0x12 => decodeFlagless (flagField w) .pk2pt
    | 0x20 => decodeFlagless (flagField w) .hash160
    | 0x21 => decodeFlagless (flagField w) .addr
    | 0x22 => .ok (.wifenc (flagField w))
    | 0x23 => decodeFlagless (flagField w) .wifdec
    | 0x24 => .ok (.sec2pk (flagField w))
    | _ => .error .unknownOpcode

/-- A row of the opcode table read by its number: a command word is 16 bits, given to the decoder as one word,
not as bytes (30_encoding R45; there is no fetch and no fetch byte order, 20_memory R35). -/
def decodeTableWord (nbits w : Nat) : Option Instr :=
  if w % 2 ^ nbits < 2 ^ 16 then (decode (BitVec.ofNat 16 (w % 2 ^ nbits))).toOption else none

/-- The opcode of a command (30_encoding R48). -/
def opOf : Instr → Nat
  | .b58enc => 0x01
  | .b58dec => 0x02
  | .b58cenc => 0x03
  | .b58cdec => 0x04
  | .pt2pk _ => 0x10
  | .recy _ => 0x11
  | .pk2pt => 0x12
  | .hash160 => 0x20
  | .addr => 0x21
  | .wifenc _ => 0x22
  | .wifdec => 0x23
  | .sec2pk _ => 0x24

/-- The flag operand `C` of a command, 0 where it has none (30_encoding R46). -/
def flagOf : Instr → Bool
  | .pt2pk c | .recy c | .wifenc c | .sec2pk c => c
  | .b58enc | .b58dec | .b58cenc | .b58cdec | .pk2pt | .hash160 | .addr | .wifdec => false

/-- The word of a command: `w = RSV·2^9 + C·2^8 + OP` with `RSV = 0` (30_encoding R46). -/
def encode (i : Instr) : Word16 :=
  BitVec.ofNat 16 (0 * 2 ^ 9 + (flagOf i).toNat * 2 ^ 8 + opOf i)

/-- The mnemonic of a command, "with the suffix .C when C = 1" (30_encoding R53). -/
def Instr.name : Instr → String
  | .b58enc => "B58ENC"
  | .b58dec => "B58DEC"
  | .b58cenc => "B58CENC"
  | .b58cdec => "B58CDEC"
  | .pt2pk c => if c then "PT2PK.C" else "PT2PK"
  | .recy c => if c then "RECY.C" else "RECY"
  | .pk2pt => "PK2PT"
  | .hash160 => "HASH160"
  | .addr => "ADDR"
  | .wifenc c => if c then "WIFENC.C" else "WIFENC"
  | .wifdec => "WIFDEC"
  | .sec2pk c => if c then "SEC2PK.C" else "SEC2PK"

/-- The command a mnemonic names, with its suffix `.C` (30_encoding R53); the suffix on a command without a
flag, or any other text, names none. -/
def assemble (text : String) : Option Instr :=
  Instr.all.find? fun i => i.name == text

end Sys2Proof
end

