-- ==== Sys2Proof/Machine/Bytes.lean ====
section
/-! DEFINITION. The number and byte-string notation of spec 00_scope sections 6.1 and 6.2, byte order as
20_memory R35 says (big-endian), and the exact arithmetic of 40_base58check R60 and 41_keypoint R80. -/

namespace Sys2Proof.Machine

/-- `be2nat(s)`: the big-endian value of a byte string. -/
def be2nat (s : ByteString) : Nat := s.foldl (fun v b => v * 256 + b.toNat) 0

/-- `nat2be(n, k)`: the `k`-byte string of value `n`, zero-padded on the left (`n < 256^k`). -/
def nat2be (n : Nat) : Nat → ByteString
  | 0 => []
  | k + 1 => nat2be (n / 256) k ++ [BitVec.ofNat 8 n]

/-- Repeated division by `base`, remainders least significant first, until the number is 0 (the loop of
40_base58check R62). The number 0 has no digit. The first argument bounds the rounds. -/
def digitLoop (base : Nat) : Nat → Nat → List Nat
  | 0, _ => []
  | rounds + 1, n => if n = 0 then [] else n % base :: digitLoop base rounds (n / base)

/-- The digits of `n`, least significant first: a number has at most as many digits as bits. -/
def digitsLE (base n : Nat) : List Nat := digitLoop base (Nat.log2 n + 1) n

/-- `nat2be_min(n)`: the shortest byte string of value `n`, empty for 0. -/
def nat2beMin (n : Nat) : ByteString := (digitsLE 256 n).reverse.map (BitVec.ofNat 8)

/-- The number of leading bytes of `s` equal to `b`: `lz(s)` for the byte 0, `lzsym(t)` for `ZSYM`. -/
def leadingCount (b : Byte) (s : ByteString) : Nat := (s.takeWhile (· == b)).length

/-- `lz(s)`: the number of leading zero bytes. -/
def lz (s : ByteString) : Nat := leadingCount 0 s

/-- The value of a digit string in a base, most significant digit first (40_base58check R63). -/
def digitsValue (base : Nat) (ds : List Nat) : Nat := ds.foldl (fun v d => v * base + d) 0

/-- The loop of `powMod`: one round a bit of the exponent, `acc` the product so far. -/
def powModLoop (m : Nat) : Nat → Nat → Nat → Nat → Nat
  | 0, _, _, acc => acc % m
  | rounds + 1, b, e, acc =>
    if e = 0 then acc % m
    else powModLoop m rounds (b * b % m) (e / 2) (if e % 2 = 1 then acc * b % m else acc)

/-- `b^e mod m` (00_scope section 6.1), by repeated squaring. "How the modular power is computed is not
observable" (41_keypoint R80); log entry 16. -/
def powMod (b e m : Nat) : Nat := powModLoop m (Nat.log2 e + 1) (b % m) e 1

end Sys2Proof.Machine
end

