-- ==== Sys2Proof/Machine/State.lean ====
section
/-! DEFINITION. The state of one B58KC unit (spec 10_state R10), the reasons a step can stop, and the state
after reset (10_state R23). -/

namespace Sys2Proof.Machine

/-- The contents of a buffer: address and byte pairs with addresses strictly rising, none of them with the
byte that an unlisted address reads as (`Memory.wf` in Ops.lean). -/
abbrev Memory := List Host.Cell

/-- What an unlisted address of a buffer reads as: its contents at reset, `0x00` (10_state R23). -/
def unlistedByte : Byte := 0x00

/-- Something the outside does to the unit: an access primitive of the host (20_memory R43), or the event
`Reset` (70_reset R130). -/
inductive Action where
  | host (a : HostAccess)
  | reset
deriving DecidableEq, Repr

/-- An action to come and its place in the total order of steps (20_memory R40): `early` says that it comes
before the completion step of a command that is still running when it is the next action. -/
structure Input where
  early : Bool
  act : Action
deriving DecidableEq, Repr

/-- The errors a command can complete with (60_exceptions R111). They are results, not traps (R110). -/
inductive CmdError where
  /-- Code 1: a base-58 decode saw a byte outside the alphabet (R112). -/
  | invalidCharacter
  /-- Code 2: a checked decode found another checksum (R113). -/
  | checksumError
  /-- Code 3: a decoded string shorter than 4 bytes, or a key or secret of the wrong length (R114);
  the source's `InvalidLengthError` is the same error (90_conflicts C1). -/
  | lengthError
  /-- Code 4: an unknown public-key marker, or a WIF payload of unexpected length (R115). -/
  | invalidFormatError
  /-- Code 5: the command word is not one of the sixteen legal ones (R117). -/
  | illegalCommand
  /-- Code 6: a legal command with `ILEN > IBUF_CAP` (R118). -/
  | capacityError
deriving DecidableEq, Repr

/-- The state: the eight items of 10_state R10, then the model's own fields. -/
structure State where
  /-- `IBUF`, the input buffer (10_state R14). -/
  ibuf : Memory
  /-- `ILEN`, the length of the input (10_state R15). -/
  ilen : Word16
  /-- `OBUF`, the output buffer (10_state R16): the bytes of the result. What stands outside the result is
  said by `obufRest`; read it through `obufByte` (Operands.lean). -/
  obuf : Memory
  /-- `OLEN`, the length of the output (10_state R17). -/
  olen : Word16
  /-- `PX`, the X coordinate (10_state R11). -/
  px : Word256
  /-- `PY`, the Y coordinate (10_state R11). -/
  py : Word256
  /-- `STATUS` (10_state R18); its fields are in Flags.lean. -/
  status : Word16
  /-- `CMDL`, the latch of the command being executed (10_state R22). -/
  cmdl : Word16
  /-- The model's own: which free bytes stand in `OBUF` outside the result; `none` until a command has
  completed, when the whole of `OBUF` holds its reset bytes (log entry 7). -/
  obufRest : Option Nat
  /-- The model's own: the number of free values drawn so far (log entry 8). -/
  draws : Nat
  /-- The model's own: the value that the most recent host read returned (20_memory R43; log entry 11). -/
  hostData : Word256
  /-- The model's own: what the outside does from here on, oldest first (log entries 5 and 6). -/
  inputs : List Input
deriving DecidableEq, Repr

/-- The reasons the machine itself stops: none. The spec gives the unit no trap, no fault and no stuck state:
every error of a command is a result (60_exceptions R110), and an access the spec does not define is refused
(20_memory R43). Safe; log entry 10. -/
inductive Fault where
deriving DecidableEq, Repr

/-- The steps the model gives no meaning to. Every one is the host's (20_memory R43: "the host is at fault;
treat as a refusal") and safe: no claim is made about a run that contains it; log entry 9. -/
inductive Refusal where
  /-- No instruction of this model raises it: every arm of `exec` has a meaning. Safe. -/
  | notModelled (mnemonic : String)
  /-- Raised by a host primitive other than `HostRead(STATUS)` and `HostRead(CMD)` while `BUSY = 1`
  (70_reset R135, 93 U5). Safe. -/
  | busyAccess
  /-- Raised by a host access to a register number of 6 or more (20_memory R43, 93 U6). Safe. -/
  | noSuchRegister
  /-- Raised by a host access to a buffer index outside its capacity (20_memory R36, R43, 93 U6). Safe. -/
  | indexOutsideBuffer
  /-- Raised by a host write of a value that does not fit the register (the ranges of 20_memory R43), and by a host
  program's line `WRI i, b` with an operand that is no byte (HostProgram.lean). Safe. -/
  | valueTooWide
  /-- Raised by a host program that jumps to a label it does not have (HostProgram.lean, 30_encoding R54);
  no step of the unit raises it. Safe. -/
  | noSuchLabel
deriving DecidableEq, Repr

/-- The state right after reset (10_state R23, 70_reset R130): every item of the spec is zero. The model's own
fields: nothing drawn, nothing read yet, nothing to come (DESIGN CHOICE, log entries 6, 7, 8 and 11). -/
def State.reset : State where
  ibuf := []
  ilen := 0
  obuf := []
  olen := 0
  px := 0
  py := 0
  status := 0
  cmdl := 0
  obufRest := none
  draws := 0
  hostData := 0
  inputs := []

end Sys2Proof.Machine
end

