-- ==== Sys2Proof/Machine/Flags.lean ====
section
/-! DEFINITION. The register `STATUS` and the error codes (spec 10_state R18, R20, 60_exceptions R111). The unit
has no arithmetic flags (10_state R20). -/

namespace Sys2Proof.Machine

/-- The code of an error in `STATUS.ERR` (60_exceptions R111). -/
def CmdError.code : CmdError → Nat
  | .invalidCharacter => 1
  | .checksumError => 2
  | .lengthError => 3
  | .invalidFormatError => 4
  | .illegalCommand => 5
  | .capacityError => 6

/-- The `STATUS` value with the given fields and the reserved bits 0 (10_state R18). -/
def statusPack (busy done : Bool) (err : Nat) : Word16 :=
  BitVec.ofNat 16 (err % 16 * 2 ^ 4 + done.toNat * 2 ^ 1 + busy.toNat)

/-- `STATUS.BUSY`, bit 0 (10_state R18). -/
def statusBusy (w : Word16) : Bool := w.getLsbD 0

/-- `STATUS.DONE`, bit 1 (10_state R18). -/
def statusDone (w : Word16) : Bool := w.getLsbD 1

/-- `STATUS.ERR`, bits 7:4 (10_state R18). -/
def statusErr (w : Word16) : Nat := w.toNat / 2 ^ 4 % 16

/-- What a read of `STATUS` returns: the reserved bits 3:2 and 15:8 "read as 0" (10_state R18). -/
def statusRead (w : Word16) : Word16 := w &&& 0x00F3

/-- `STATUS` after the issue step: `BUSY = 1`, `DONE = 0`, `ERR = 0` (30_encoding R56). -/
def statusIssued : Word16 := statusPack true false 0

/-- `STATUS` after a successful completion: `BUSY = 0`, `DONE = 1`, `ERR = 0` (30_encoding R58). -/
def statusCompleted : Word16 := statusPack false true 0

/-- `STATUS` after an error completion: `BUSY = 0`, `DONE = 1`, `ERR = code(E)` (60_exceptions R116). -/
def statusFailed (e : CmdError) : Word16 := statusPack false true e.code

/-- The unit is running a command. -/
def State.busy (s : State) : Bool := statusBusy s.status

end Sys2Proof.Machine
end

