-- ==== Sys2Proof/Machine/Ops.lean ====
section
/-! DEFINITION. The named operations over buffers and registers: reading and writing a buffer (spec 20_memory
R31, R32, R34), and how a command completes, with its results (30_encoding R57, R58) or with an error
(60_exceptions R116). The error completion is this unit's one way of "taking an exception"; there is no return
from it (60_exceptions R110, R122). -/

namespace Sys2Proof.Machine

/-- The byte of a buffer at an index. -/
def Memory.read : Memory → Nat → Byte
  | [], _ => unlistedByte
  | (k, b) :: rest, a => if a = k then b else Memory.read rest a

/-- One byte put at the front, left out if it is what an unlisted address reads as. -/
def Memory.cons (a : Nat) (b : Byte) (m : Memory) : Memory := if b = unlistedByte then m else (a, b) :: m

/-- The buffer with the byte at one index replaced, in the canonical form. -/
def Memory.write : Memory → Nat → Byte → Memory
  | [], a, b => Memory.cons a b []
  | (k, c) :: rest, a, b =>
    if a < k then Memory.cons a b ((k, c) :: rest)
    else if a = k then Memory.cons a b rest
    else (k, c) :: Memory.write rest a b

/-- The canonical form of a buffer: addresses strictly rising, no byte listed that an unlisted address reads
as anyway. -/
def Memory.wf (m : Memory) : Bool :=
  decide (m.Pairwise fun x y => x.1 < y.1) && m.all fun x => x.2 != unlistedByte

/-- Every listed address of a buffer lies inside its capacity (20_memory R30). -/
def Memory.within (m : Memory) (cap : Nat) : Bool := m.all fun x => decide (x.1 < cap)

/-- `MemRead(BUF, a, n)` (20_memory R31). -/
def memRead (m : Memory) (a n : Nat) : ByteString := (List.range n).map fun i => m.read (a + i)

/-- `MemWrite(BUF, a, len(s), s)` (20_memory R32). -/
def memWrite (m : Memory) (a : Nat) : ByteString → Memory
  | [] => m
  | b :: rest => memWrite (m.write a b) (a + 1) rest

/-- The results of a command (30_encoding R58): the byte string of `OUT <- s` (`[]` where the command has no
byte-string output, 20_memory R34) and the coordinates it writes, `none` where it leaves the register alone
(10_state R12). -/
structure Result where
  out : ByteString
  px : Option Word256 := none
  py : Option Word256 := none
deriving DecidableEq, Repr

/-- `OUT <- s` (20_memory R34): the bytes from `OBUF[0]`, the length in `OLEN`, and any value in the rest of
`OBUF`, which is a fresh draw (log entry 7). -/
def writeOut (s : State) (out : ByteString) : State :=
  { s with
    obuf := memWrite [] 0 out
    olen := BitVec.ofNat 16 out.length
    obufRest := some s.draws
    draws := s.draws + 1 }

/-- Successful completion (30_encoding R58). -/
def succeed (r : Result) (s : State) : State :=
  { writeOut s r.out with
    px := r.px.getD s.px
    py := r.py.getD s.py
    status := statusCompleted }

/-- Error completion, `raise E` (60_exceptions R116): the code, `BUSY` and `DONE`; `OLEN` is 0 and every byte of
`OBUF` any value, which is what `OUT <- []` leaves; nothing else is written. -/
def raise (e : CmdError) (s : State) : State :=
  { writeOut s [] with status := statusFailed e }

/-- How a command that has been run on the state completes (30_encoding R57, last sentence). -/
def finish (s : State) : Except CmdError Result → State
  | .error e => raise e s
  | .ok r => succeed r s

/-- Steps 2 and 3 of the completion step (30_encoding R57) for a legal command: the capacity test "for every
legal command", then the command's own pseudocode, given by what it answers on the state. -/
def runCommand (body : State → Except CmdError Result) (s : State) : State :=
  if Config.params.ibufCap < s.ilen.toNat then raise .capacityError s else finish s (body s)

/-- The command word the completion step decodes (30_encoding R57 step 1): the latch `CMDL`. -/
def commandWord (s : State) : Word16 := s.cmdl

/-- Step 1 of the completion step for an illegal word: `raise IllegalCommand` (30_encoding R57, 60_exceptions
R117). -/
def raiseIllegal (s : State) : State := raise .illegalCommand s

end Sys2Proof.Machine
end

