-- ==== Sys2Proof/Machine/Operands.lean ====
section
/-! DEFINITION. The operand forms of spec 30_encoding R47: every operand but the flag `C` is implicit. -/

namespace Sys2Proof.Machine

/-- `IN = MemRead(IBUF, 0, ILEN)`, the byte-string argument (30_encoding R47, 20_memory R44). -/
def inputBytes (s : State) : ByteString := memRead s.ibuf 0 s.ilen.toNat

/-- The point argument `(PX, PY)` as naturals (30_encoding R47, 41_keypoint R81). -/
def pointOperand (s : State) : Nat × Nat := (s.px.toNat, s.py.toNat)

/-- A byte-string result and nothing else (30_encoding R47). -/
def bytesResult (out : ByteString) : Result := { out := out }

/-- The integer result of `RECY`: it goes to `PY`, and the byte-string output is empty (30_encoding R47,
41_keypoint R85). The value fits: it is at most `P < 2^256`; log entry 17. -/
def yResult (y : Nat) : Result := { out := [], py := some (BitVec.ofNat 256 y) }

/-- A point result with a byte-string output, `[]` for none (30_encoding R47). The coordinates fit; log
entry 17. -/
def pointResult (xy : Nat × Nat) (out : ByteString) : Result :=
  { out := out, px := some (BitVec.ofNat 256 xy.1), py := some (BitVec.ofNat 256 xy.2) }

/-- The byte that `OBUF` holds at an index (10_state R16, 20_memory R34): the result's inside the result, the
reset byte while no command has completed, and otherwise any value. -/
def obufByte (s : State) (i : Nat) : Byte :=
  match s.obufRest with
  | none => s.obuf.read i
  | some t => if i < s.olen.toNat then s.obuf.read i else Config.scratchByte t i

/-- The result in the output buffer, `OBUF[0 .. OLEN−1]` (10_state R16). -/
def outputBytes (s : State) : ByteString := (List.range s.olen.toNat).map (obufByte s)

end Sys2Proof.Machine
end

