-- ==== Sys2Proof/Machine/Base58.lean ====
section
/-! DEFINITION. The Base58Check codec: the pure functions of spec 40_base58check and the commands `B58ENC`,
`B58DEC`, `B58CENC`, `B58CDEC`. -/

namespace Sys2Proof.Machine

/-- `ALPHABET[i]` for a digit value below 58 (40_base58check R61). -/
def symbolOf (c : Params) (i : Nat) : Byte := c.alphabet.getD i 0

/-- `ZSYM = ALPHABET[0]` (40_base58check R61). -/
def zeroSymbol (c : Params) : Byte := symbolOf c 0

/-- `idx(ch)`: the digit value of a character, `none` outside the alphabet (40_base58check R61). -/
def symbolIndex (c : Params) (ch : Byte) : Option Nat := c.alphabet.idxOf? ch

/-- `b58enc(s)` (40_base58check R62). -/
def b58enc (c : Params) (s : ByteString) : ByteString :=
  let d := digitsLE Config.radix (be2nat s)
  List.replicate (lz s) (zeroSymbol c) ++ d.reverse.map (symbolOf c)

/-- The digit values of a character string, `none` if some character is outside the alphabet (the first loop
of 40_base58check R63). -/
def charDigits (c : Params) : ByteString → Option (List Nat)
  | [] => some []
  | ch :: rest =>
    match symbolIndex c ch, charDigits c rest with
    | some d, some ds => some (d :: ds)
    | _, _ => none

/-- `b58dec(t)` (40_base58check R63). -/
def b58dec (c : Params) (t : ByteString) : Except CmdError ByteString :=
  match charDigits c t with
  | none => .error .invalidCharacter
  | some ds =>
    .ok (List.replicate (leadingCount (zeroSymbol c) t) 0x00 ++ nat2beMin (digitsValue Config.radix ds))

/-- `cksum(p) = first4(SHA256(SHA256(p)))` (40_base58check R64). -/
def cksum (c : Params) (p : ByteString) : ByteString :=
  (c.sha256 (c.sha256 p).toList).toList.take Config.checksumLength

/-- `b58cenc(p)` (40_base58check R69). -/
def b58cenc (c : Params) (p : ByteString) : ByteString := b58enc c (p ++ cksum c p)

/-- The checksum test of `b58cdec` on a decoded string: length, then checksum (40_base58check R70). -/
def checkedPayload (c : Params) (d : ByteString) : Except CmdError ByteString :=
  if d.length < Config.checksumLength then .error .lengthError
  else
    let p := d.take (d.length - Config.checksumLength)
    if cksum c p ≠ d.drop (d.length - Config.checksumLength) then .error .checksumError else .ok p

/-- `b58cdec(t)` (40_base58check R70): alphabet, then length, then checksum. -/
def b58cdec (c : Params) (t : ByteString) : Except CmdError ByteString :=
  match b58dec c t with
  | .error e => .error e
  | .ok d => checkedPayload c d

/-- `B58ENC` (40_base58check R67): `OUT <- b58enc(IN)`. -/
def execB58enc (s : State) : Host.Outcome State Fault Refusal :=
  .next (runCommand (fun s => .ok (bytesResult (b58enc Config.params (inputBytes s)))) s)

/-- `B58DEC` (40_base58check R68): `OUT <- b58dec(IN)`. -/
def execB58dec (s : State) : Host.Outcome State Fault Refusal :=
  .next (runCommand (fun s => (b58dec Config.params (inputBytes s)).map bytesResult) s)

/-- `B58CENC` (40_base58check R71): `OUT <- b58cenc(IN)`. -/
def execB58cenc (s : State) : Host.Outcome State Fault Refusal :=
  .next (runCommand (fun s => .ok (bytesResult (b58cenc Config.params (inputBytes s)))) s)

/-- `B58CDEC` (40_base58check R72): `OUT <- b58cdec(IN)`. -/
def execB58cdec (s : State) : Host.Outcome State Fault Refusal :=
  .next (runCommand (fun s => (b58cdec Config.params (inputBytes s)).map bytesResult) s)

end Sys2Proof.Machine
end

