-- ==== Sys2Proof/Machine/KeyPoint.lean ====
section
/-! DEFINITION. The Key/Point codec: the pure functions of spec 41_keypoint and the commands `PT2PK`, `RECY`,
`PK2PT`. No command checks that a coordinate is below `P` or that a point is on the curve (R90). -/

namespace Sys2Proof.Machine

/-- `pt2pk(X, Y, compressed)` (41_keypoint R82). -/
def pt2pk (x y : Nat) (compressed : Bool) : ByteString :=
  if compressed then (Config.markerEven + BitVec.ofNat 8 (y % 2)) :: nat2be x Config.fieldLength
  else Config.markerUncompressed :: nat2be x Config.fieldLength ++ nat2be y Config.fieldLength

/-- `y2 = (x^3 + A·x^2 + B) mod P`, with `A·x^2` as the source writes it (41_keypoint R84, 90_conflicts C2). -/
def curveRhs (c : Curve) (x : Nat) : Nat := (x ^ 3 + c.a * x ^ 2 + c.b) % c.p

/-- `y2^((P+1)/4) mod P` (41_keypoint R84). -/
def curveRoot (c : Curve) (x : Nat) : Nat := powMod (curveRhs c x) ((c.p + 1) / 4) c.p

/-- `recy(x, wantOdd)` (41_keypoint R84). -/
def recy (c : Curve) (x : Nat) (wantOdd : Bool) : Nat :=
  let y := curveRoot c x
  if decide (y % 2 = 1) = wantOdd then y else c.p - y

/-- `pk2pt(b)` (41_keypoint R86, length tests R87): the empty string, then the marker, then the length. -/
def pk2pt (c : Curve) (b : ByteString) : Except CmdError (Nat × Nat) :=
  match b with
  | [] => .error .lengthError
  | m :: body =>
    if m = Config.markerUncompressed then
      if b.length ≠ Config.uncompressedLength then .error .lengthError
      else .ok (be2nat (body.take Config.fieldLength), be2nat (body.drop Config.fieldLength))
    else if m = Config.markerEven ∨ m = Config.markerOdd then
      if b.length ≠ Config.compressedLength then .error .lengthError
      else .ok (be2nat body, recy c (be2nat body) (decide (m = Config.markerOdd)))
    else .error .invalidFormatError

/-- `PT2PK` (41_keypoint R83): `OUT <- pt2pk(PX, PY, C = 1)`. -/
def execPt2pk (flag : Bool) (s : State) : Host.Outcome State Fault Refusal :=
  .next (runCommand (fun s => .ok (bytesResult (pt2pk (pointOperand s).1 (pointOperand s).2 flag))) s)

/-- `RECY` (41_keypoint R85): `PY <- recy(PX, C = 1)`; `OUT <- []`. -/
def execRecy (flag : Bool) (s : State) : Host.Outcome State Fault Refusal :=
  .next (runCommand (fun s => .ok (yResult (recy Config.params.curve (pointOperand s).1 flag))) s)

/-- `PK2PT` (41_keypoint R88): `(PX, PY) <- pk2pt(IN)`; `OUT <- []`. -/
def execPk2pt (s : State) : Host.Outcome State Fault Refusal :=
  .next (runCommand
    (fun s => (pk2pt Config.params.curve (inputBytes s)).map fun xy => pointResult xy []) s)

end Sys2Proof.Machine
end

