-- ==== Sys2Proof/Machine/Derivation.lean ====
section
/-! DEFINITION. The derivation glue: the pure functions of spec 42_derivation and the commands `HASH160`, `ADDR`,
`WIFENC`, `WIFDEC`, `SEC2PK`, each a composition of the two codecs with the collaborators. -/

namespace Sys2Proof.Machine

/-- `hash160(data) = RIPEMD160(SHA256(data))` (42_derivation R95). -/
def hash160 (c : Params) (data : ByteString) : ByteString :=
  (c.ripemd160 (c.sha256 data).toList).toList

/-- The address of public-key bytes, `b58cenc([0x00] ++ hash160(b))`; the bytes are not validated
(42_derivation R97). -/
def addressOf (c : Params) (b : ByteString) : ByteString :=
  b58cenc c (Config.addressVersion :: hash160 c b)

/-- The WIF string of a secret (42_derivation R98). -/
def wifOf (c : Params) (secret : ByteString) (compressed : Bool) : Except CmdError ByteString :=
  if secret.length ≠ Config.fieldLength then .error .lengthError
  else if compressed then .ok (b58cenc c ([Config.wifVersion] ++ secret ++ [Config.wifCompressed]))
  else .ok (b58cenc c ([Config.wifVersion] ++ secret))

/-- The secret in a WIF payload, `p[1:33]` of 34 or 33 bytes; neither the prefix nor the compression marker
is compared with anything (42_derivation R99). -/
def secretOfPayload (p : ByteString) : Except CmdError ByteString :=
  if p.length = Config.fieldLength + 2 then .ok ((p.drop 1).take Config.fieldLength)
  else if p.length = Config.fieldLength + 1 then .ok ((p.drop 1).take Config.fieldLength)
  else .error .invalidFormatError

/-- The secret of a WIF string (42_derivation R99). -/
def secretOfWif (c : Params) (t : ByteString) : Except CmdError ByteString :=
  match b58cdec c t with
  | .error e => .error e
  | .ok p => secretOfPayload p

/-- The point of a secret, `scalarMult(be2nat(secret))`, the secret not range-checked (42_derivation R100). -/
def pointOfSecret (c : Params) (secret : ByteString) : Except CmdError (Nat × Nat) :=
  if secret.length ≠ Config.fieldLength then .error .lengthError
  else .ok ((c.scalarMult (be2nat secret)).1.toNat, (c.scalarMult (be2nat secret)).2.toNat)

/-- `HASH160` (42_derivation R96): `OUT <- hash160(IN)`. -/
def execHash160 (s : State) : Host.Outcome State Fault Refusal :=
  .next (runCommand (fun s => .ok (bytesResult (hash160 Config.params (inputBytes s)))) s)

/-- `ADDR` (42_derivation R97): `OUT <- b58cenc([0x00] ++ hash160(IN))`. -/
def execAddr (s : State) : Host.Outcome State Fault Refusal :=
  .next (runCommand (fun s => .ok (bytesResult (addressOf Config.params (inputBytes s)))) s)

/-- `WIFENC` (42_derivation R98). -/
def execWifenc (flag : Bool) (s : State) : Host.Outcome State Fault Refusal :=
  .next (runCommand (fun s => (wifOf Config.params (inputBytes s) flag).map bytesResult) s)

/-- `WIFDEC` (42_derivation R99). -/
def execWifdec (s : State) : Host.Outcome State Fault Refusal :=
  .next (runCommand (fun s => (secretOfWif Config.params (inputBytes s)).map bytesResult) s)

/-- `SEC2PK` (42_derivation R100): the point in `PX`, `PY` and `OUT <- pt2pk(X, Y, C = 1)`. -/
def execSec2pk (flag : Bool) (s : State) : Host.Outcome State Fault Refusal :=
  .next (runCommand
    (fun s => (pointOfSecret Config.params (inputBytes s)).map fun xy =>
      pointResult xy (pt2pk xy.1 xy.2 flag)) s)

end Sys2Proof.Machine
end

