-- ==== Sys2Proof/Machine/Dispatch.lean ====
section
/-! DEFINITION. The meaning of every command: what the completion step does with a decoded command (spec
30_encoding R57, steps 2 and 3), one arm per constructor of `Instr`. -/

namespace Sys2Proof.Machine

def exec (i : Instr) (s : State) : Host.Outcome State Fault Refusal :=
  match i with
  | .b58enc => Sys2Proof.Machine.execB58enc s
  | .b58dec => Sys2Proof.Machine.execB58dec s
  | .b58cenc => Sys2Proof.Machine.execB58cenc s
  | .b58cdec => Sys2Proof.Machine.execB58cdec s
  | .pt2pk c => Sys2Proof.Machine.execPt2pk c s
  | .recy c => Sys2Proof.Machine.execRecy c s
  | .pk2pt => Sys2Proof.Machine.execPk2pt s
  | .hash160 => Sys2Proof.Machine.execHash160 s
  | .addr => Sys2Proof.Machine.execAddr s
  | .wifenc c => Sys2Proof.Machine.execWifenc c s
  | .wifdec => Sys2Proof.Machine.execWifdec s
  | .sec2pk c => Sys2Proof.Machine.execSec2pk c s

end Sys2Proof.Machine
end

