-- ==== Sys2Proof/Machine/HostPort.lean ====
section
/-! DEFINITION. What the outside does to the unit: the host's access primitives (spec 20_memory R43), the issue
step (30_encoding R56), the reset event (70_reset R130, R132), and which step comes next (20_memory R40). -/

namespace Sys2Proof

/-- The register of a number, 0 to 5; "register numbers 6 and above do not exist" (10_state section 6). -/
def HostReg.ofNumber : Nat → Option HostReg
  | 0 => some .cmd
  | 1 => some .status
  | 2 => some .ilen
  | 3 => some .olen
  | 4 => some .px
  | 5 => some .py
  | _ => none

/-- The number of a register (10_state section 6). -/
def HostReg.number : HostReg → Nat
  | .cmd => 0
  | .status => 1
  | .ilen => 2
  | .olen => 3
  | .px => 4
  | .py => 5

/-- The width of a register in bits (10_state section 6, 20_memory R37). -/
def HostReg.width : HostReg → Nat
  | .px | .py => 256
  | .cmd | .status | .ilen | .olen => 16

/-- Whether a host write to the register stores a value or issues a command: all but the read-only `STATUS`
and `OLEN`, whose writes have no effect (10_state section 6, 20_memory R43). -/
def HostReg.writable : HostReg → Bool
  | .status | .olen => false
  | .cmd | .ilen | .px | .py => true

end Sys2Proof

namespace Sys2Proof.Machine

/-- The issue step: `CMDL <- w`, `BUSY <- 1`, `DONE <- 0`, `ERR <- 0`, nothing else; the word is not decoded
(30_encoding R56). -/
def issue (w : Word16) (s : State) : State := { s with cmdl := w, status := statusIssued }

/-- A host read returns a value; it changes no item of the unit (20_memory R37). -/
def answer (v : Word256) (s : State) : State := { s with hostData := v }

/-- What a read of a register returns: 0 for `CMD`, the register otherwise (10_state R19, 20_memory R43). -/
def registerValue (q : HostReg) (s : State) : Word256 :=
  match q with
  | .cmd => 0
  | .status => (statusRead s.status).setWidth 256
  | .ilen => s.ilen.setWidth 256
  | .olen => s.olen.setWidth 256
  | .px => s.px
  | .py => s.py

/-- The registers the host may read while a command runs: `STATUS` and `CMD` (20_memory R43, 70_reset R134). -/
def readableBusy : HostReg → Bool
  | .status | .cmd => true
  | .ilen | .olen | .px | .py => false

/-- `HostRead(r)` (20_memory R43). -/
def hostRead (r : Nat) (s : State) : Host.Outcome State Fault Refusal :=
  match HostReg.ofNumber r with
  | none => .refused .noSuchRegister
  | some q =>
    if s.busy = true ∧ readableBusy q = false then .refused .busyAccess
    else .next (answer (registerValue q s) s)

/-- What a write does to the register, the value in range: `CMD` issues, `STATUS` and `OLEN` are read-only and
nothing happens (10_state section 6, 20_memory R43). -/
def writeRegister (q : HostReg) (v : Nat) (s : State) : State :=
  match q with
  | .cmd => issue (BitVec.ofNat 16 v) s
  | .status => s
  | .olen => s
  | .ilen => { s with ilen := BitVec.ofNat 16 v }
  | .px => { s with px := BitVec.ofNat 256 v }
  | .py => { s with py := BitVec.ofNat 256 v }

/-- `HostWrite(r, v)` (20_memory R43). -/
def hostWrite (r v : Nat) (s : State) : Host.Outcome State Fault Refusal :=
  match HostReg.ofNumber r with
  | none => .refused .noSuchRegister
  | some q =>
    if s.busy then .refused .busyAccess
    else if q.writable = true ∧ 2 ^ q.width ≤ v then .refused .valueTooWide
    else .next (writeRegister q v s)

/-- `HostWriteIBUF(i, b)` (20_memory R43). -/
def hostWriteIbuf (i : Nat) (b : Byte) (s : State) : Host.Outcome State Fault Refusal :=
  if s.busy then .refused .busyAccess
  else if Config.params.ibufCap ≤ i then .refused .indexOutsideBuffer
  else .next { s with ibuf := s.ibuf.write i b }

/-- `HostReadIBUF(i)` (20_memory R43). -/
def hostReadIbuf (i : Nat) (s : State) : Host.Outcome State Fault Refusal :=
  if s.busy then .refused .busyAccess
  else if Config.params.ibufCap ≤ i then .refused .indexOutsideBuffer
  else .next (answer ((s.ibuf.read i).setWidth 256) s)

/-- Any byte: a fresh draw, and the count of draws goes on (log entry 8). -/
def drawByte (s : State) : Byte × State := (Config.drawnByte s.draws, { s with draws := s.draws + 1 })

/-- `HostReadOBUF(i)` (20_memory R34, R43): "returns OBUF[i] if i < OLEN, any byte otherwise". -/
def hostReadObuf (i : Nat) (s : State) : Host.Outcome State Fault Refusal :=
  if s.busy then .refused .busyAccess
  else if Config.params.obufCap ≤ i then .refused .indexOutsideBuffer
  else if i < s.olen.toNat then .next (answer ((obufByte s i).setWidth 256) s)
  else .next (answer ((drawByte s).1.setWidth 256) (drawByte s).2)

/-- One access primitive of the host, one atomic step (20_memory R43). -/
def hostAccess (a : HostAccess) (s : State) : Host.Outcome State Fault Refusal :=
  match a with
  | .read r => hostRead r s
  | .write r v => hostWrite r v s
  | .writeIbuf i b => hostWriteIbuf i b s
  | .readIbuf i => hostReadIbuf i s
  | .readObuf i => hostReadObuf i s

/-- The event `Reset`: every item of state takes its reset value, a running command is abandoned (70_reset
R130, R132). What the outside does next, what it has read and how many values have been drawn are no items of
the unit and stay (log entry 12). -/
def resetEvent (s : State) : State :=
  { State.reset with draws := s.draws, hostData := s.hostData, inputs := s.inputs }

/-- An action of the outside. -/
def performAction (a : Action) (s : State) : Host.Outcome State Fault Refusal :=
  match a with
  | .host h => hostAccess h s
  | .reset => .next (resetEvent s)

/-- Who moves next. -/
inductive Move where
  /-- The `UNIT` completes the running command. -/
  | complete
  /-- The outside acts, and the inputs after this one remain. -/
  | outside (a : Action) (rest : List Input)
  /-- Nobody: no command runs and no action is to come; "the unit is idle and holds its state indefinitely"
  (60_exceptions R126). -/
  | idle
deriving DecidableEq, Repr

/-- The total order of steps (20_memory R40): in the busy window the next action of the outside if it is to
come before the completion, else the completion step, which is enabled exactly when `BUSY = 1` (30_encoding
R57) and comes at the latest when no action is left (70_reset R136); outside it the next action. Log entry 5. -/
def nextMove (s : State) : Move :=
  match s.busy, s.inputs with
  | true, [] => .complete
  | true, i :: rest => if i.early then .outside i.act rest else .complete
  | false, [] => .idle
  | false, i :: rest => .outside i.act rest

/-- The inputs with the next one put after the completion of the running command. -/
def holdInputs : List Input → List Input
  | [] => []
  | i :: rest => { i with early := false } :: rest

end Sys2Proof.Machine
end

