-- ==== Sys2Proof/Machine/Step.lean ====
section
/-! DEFINITION. One step of the machine: the completion step of the unit (spec 30_encoding R57), an action of
the outside (20_memory R43, 70_reset R130), or idling. -/

namespace Sys2Proof.Machine

/-- The completion step (30_encoding R57): step 1, the decoding, then the command. -/
def completeStep (s : State) : Host.Outcome State Fault Refusal :=
  match decode (commandWord s) with
  | .error _ => .next (raiseIllegal s)
  | .ok i => exec i s

/-- One step of the total order of 20_memory R40. -/
def step (s : State) : Host.Outcome State Fault Refusal :=
  match nextMove s with
  | .complete => completeStep s
  | .outside a rest => performAction a { s with inputs := rest }
  | .idle => .next s

/-- The state in which the command word of a table row has just been issued (30_encoding R56) and the
completion step is next: the word is where the unit decodes it, in the latch `CMDL`; log entry 6. -/
def State.withFetchWord (s : State) (nbits w : Nat) : State :=
  { issue (BitVec.ofNat 16 (w % 2 ^ nbits)) s with inputs := holdInputs s.inputs }

end Sys2Proof.Machine
end

