-- ==== Sys2Proof/Machine/HostProgram.lean ====
section
/-! DEFINITION. The host's programs: their lines (spec 30_encoding R53, R54), the macros (R55), what a line does
and when a run ends (70_reset R138). A layer over `step`: every line that touches the unit is one step of the
machine with that primitive as its next input. The unit does not see the program; log entry 19. -/

namespace Sys2Proof.Machine

/-- An operand of a host line: a literal, the value `reg'` of the last `RD reg`, or the byte of the last `RDI`
or `RDO` (30_encoding R54, R55). -/
inductive HostValue where
  | lit (v : Nat)
  | reg (q : HostReg)
  | byte
deriving DecidableEq, Repr

/-- A condition on a value read: `reg'[hi:lo] = n`, or `≠ n` with a constant `n`. The spec gives `cond` no grammar
(30_encoding R54); these forms are all that its macros and programs use (`STATUS'[0] = 1`, `ERR = 0`, `ERR ≠ 0`).
There is no order comparison and no condition on the byte of `RDI` or `RDO`. DESIGN CHOICE, log entry 19. -/
structure HostCond where
  reg : HostReg
  hi : Nat
  lo : Nat
  equal : Bool
  n : Nat
deriving DecidableEq, Repr

/-- A line of a host program (30_encoding R54). -/
inductive HostLine where
  /-- `WR reg, v`. -/
  | wr (q : HostReg) (v : HostValue)
  /-- `RD reg`. -/
  | rd (q : HostReg)
  /-- `WRI i, b`. -/
  | wri (i : Nat) (b : HostValue)
  /-- `RDI i`. -/
  | rdi (i : Nat)
  /-- `RDO i`. -/
  | rdo (i : Nat)
  /-- A mnemonic: `HostWrite(CMD, word)` (30_encoding R53). -/
  | command (i : Instr)
  /-- `IF cond GOTO label`. -/
  | ifGoto (c : HostCond) (label : String)
  /-- `label:`. -/
  | label (name : String)
  /-- `HALT`. -/
  | halt
  /-- The part of `O2I` after `RD OLEN`, whose length is known only when it is reached (30_encoding R55). -/
  | copyOut
deriving DecidableEq, Repr

/-- `LDI h0 h1 ...` (30_encoding R55). -/
def macroLdi (bs : ByteString) : List HostLine :=
  (bs.zipIdx.map fun x => .wri x.2 (.lit x.1.toNat)) ++ [.wr .ilen (.lit bs.length)]

/-- `LDS "text"`: `LDI` of the ASCII bytes of the characters (30_encoding R55). -/
def macroLds (text : String) : List HostLine :=
  macroLdi (text.toList.map fun ch => BitVec.ofNat 8 ch.toNat)

/-- `WAIT`: poll until `BUSY = 0` (30_encoding R55). -/
def macroWait (name : String) : List HostLine :=
  [.label name, .rd .status, .ifGoto ⟨.status, 0, 0, true, 1⟩ name]

/-- `O2I`: copy the output to the input (30_encoding R55). -/
def macroO2i : List HostLine := [.rd .olen, .copyOut]

/-- `RUN M`: the command, then `WAIT` (30_encoding R55). -/
def macroRun (i : Instr) (name : String) : List HostLine := .command i :: macroWait name

/-- `ERR ≠ n` or `ERR = n`: the value `STATUS'[7:4]` (30_encoding R55). -/
def condErr (equal : Bool) (n : Nat) : HostCond := ⟨.status, 7, 4, equal, n⟩

/-- The expansion of `O2I` once `OLEN'` is known: `RDO i`, `WRI i, <that byte>` for each index, then
`WR ILEN, OLEN'` (30_encoding R55). -/
def copyOutLines (n : Nat) : List HostLine :=
  ((List.range n).flatMap fun i => [HostLine.rdo i, HostLine.wri i .byte]) ++ [.wr .ilen (.lit n)]

/-- A host with its program and its unit. -/
structure HostRun where
  /-- The whole program, where a jump looks for its label. -/
  program : List HostLine
  /-- The lines still to be performed. -/
  todo : List HostLine
  /-- The value `reg'` of each register, by its number; 0 before the first read. -/
  regs : Vector Word256 6
  /-- The byte the last `RDI` or `RDO` returned. -/
  byte : Byte
  /-- The unit. -/
  unit : State
deriving DecidableEq, Repr

/-- A program at its start, the unit in its reset state. -/
def HostRun.start (program : List HostLine) : HostRun where
  program := program
  todo := program
  regs := Vector.replicate 6 0
  byte := 0
  unit := State.reset

/-- The value of an operand. -/
def HostRun.value (h : HostRun) : HostValue → Nat
  | .lit v => v
  | .reg q => (h.regs.toList.getD q.number 0).toNat
  | .byte => h.byte.toNat

/-- Whether a condition holds: `v[hi:lo]` is `(v div 2^lo) mod 2^(hi−lo+1)` (00_scope section 6.1). -/
def HostRun.holds (h : HostRun) (c : HostCond) : Bool :=
  (decide (h.value (.reg c.reg) / 2 ^ c.lo % 2 ^ (c.hi - c.lo + 1) = c.n)) == c.equal

/-- The lines after a label, `none` if the program has no such label. Where a label stands more than once, of which
the spec says nothing (30_encoding R54), it is the first in the program: DESIGN CHOICE, log entry 19. -/
def linesAfter (name : String) : List HostLine → Option (List HostLine)
  | [] => none
  | l :: rest => if l = .label name then some rest else linesAfter name rest

/-- One primitive performed on the unit: the machine's step with that primitive as its next input. -/
def HostRun.access (h : HostRun) (a : HostAccess) (after : HostRun → State → HostRun) :
    Host.Outcome HostRun Fault Refusal :=
  match step { h.unit with inputs := [⟨true, .host a⟩] } with
  | .next u => .next (after h u)
  | .fault r => .fault r
  | .refused r => .refused r

/-- The unit's state taken over, nothing remembered. -/
def HostRun.took (h : HostRun) (u : State) : HostRun := { h with unit := u }

/-- The value read is remembered as `reg'`. -/
def HostRun.tookReg (q : HostReg) (h : HostRun) (u : State) : HostRun :=
  { h with unit := u, regs := h.regs.setIfInBounds q.number u.hostData }

/-- The value read is remembered as the byte. -/
def HostRun.tookByte (h : HostRun) (u : State) : HostRun :=
  { h with unit := u, byte := u.hostData.setWidth 8 }

/-- The host performs a line (30_encoding R53 to R55), the lines after it given by `h.todo`. A `WRI` whose operand
is 256 or more is refused as too wide: 20_memory R43 and 30_encoding R54 give the primitive a byte `b` only. DESIGN
CHOICE, log entries 9 and 19. -/
def HostRun.perform (h : HostRun) (l : HostLine) : Host.Outcome HostRun Fault Refusal :=
  match l with
  | .wr q v => h.access (.write q.number (h.value v)) HostRun.took
  | .rd q => h.access (.read q.number) (HostRun.tookReg q)
  | .wri i b =>
    if 2 ^ 8 ≤ h.value b then .refused .valueTooWide
    else h.access (.writeIbuf i (BitVec.ofNat 8 (h.value b))) HostRun.took
  | .rdi i => h.access (.readIbuf i) HostRun.tookByte
  | .rdo i => h.access (.readObuf i) HostRun.tookByte
  | .command i => h.access (.write HostReg.cmd.number (encode i).toNat) HostRun.took
  | .ifGoto c name =>
    if h.holds c then
      match linesAfter name h.program with
      | some rest => .next { h with todo := rest }
      | none => .refused .noSuchLabel
    else .next h
  | .label _ => .next h
  | .halt => .next { h with todo := [] }
  | .copyOut => .next { h with todo := copyOutLines (h.value (.reg .olen)) ++ h.todo }

/-- A step of the host: its next line; at the end of its program it does nothing. -/
def HostRun.hostStep (h : HostRun) : Host.Outcome HostRun Fault Refusal :=
  match h.todo with
  | [] => .next h
  | l :: rest => HostRun.perform { h with todo := rest } l

/-- A step of the unit while the host does nothing: it completes its command, or idles. -/
def HostRun.unitStep (h : HostRun) : Host.Outcome HostRun Fault Refusal :=
  match step { h.unit with inputs := [] } with
  | .next u => .next { h with unit := u }
  | .fault r => .fault r
  | .refused r => .refused r

/-- Whose step comes next in the total order (20_memory R40). -/
inductive Turn where
  | host | unit
deriving DecidableEq, Repr

/-- One turn of a schedule. -/
def HostRun.turn (t : Turn) (h : HostRun) : Host.Outcome HostRun Fault Refusal :=
  match t with
  | .host => h.hostStep
  | .unit => h.unitStep

/-- A run along a schedule, stopping at the first refusal. -/
def HostRun.run : List Turn → HostRun → Host.Outcome HostRun Fault Refusal
  | [], h => .next h
  | t :: rest, h =>
    match h.turn t with
    | .next h' => HostRun.run rest h'
    | .fault r => .fault r
    | .refused r => .refused r

/-- A run has ended: the host program has halted and no command is running (70_reset R138). -/
def HostRun.ended (h : HostRun) : Bool := h.todo.isEmpty && !h.unit.busy

end Sys2Proof.Machine
end

