-- ==== Sys2Proof/Safety.lean ====
section
/-! DEFINITION. What the statements speak of: the invariant of the machine, what a completed command leaves, and
what it does not touch. -/

namespace Sys2Proof.Machine

/-- The register `STATUS` is legal (spec 10_state R18): reserved bits 0, `BUSY` and `DONE` not both 1, `ERR`
between 0 and 6, and no `ERR` while a command runs (30_encoding R56). -/
structure StatusLegal (w : Word16) : Prop where
  reserved : w &&& 0xFF0C = 0
  notBoth : ¬ (statusBusy w = true ∧ statusDone w = true)
  err_le : statusErr w ≤ 6
  err_busy : statusBusy w = true → statusErr w = 0

/-- The invariant of the machine: the buffers are in their canonical form, lie inside their capacities
(20_memory R30), the output buffer lists no byte outside the result, the result fits `OBUF` (40_base58check
R66), `STATUS` is legal, and while no command has completed there is no output. -/
structure State.Inv (s : State) : Prop where
  ibuf_wf : s.ibuf.wf = true
  ibuf_within : s.ibuf.within Config.params.ibufCap = true
  obuf_wf : s.obuf.wf = true
  obuf_within : s.obuf.within s.olen.toNat = true
  olen_le : s.olen.toNat ≤ Config.params.obufCap
  status : StatusLegal s.status
  fresh : s.obufRest = none → s.olen = 0

/-- The items that no command writes (10_state R12, R14, R15, 30_encoding R58, 60_exceptions R116), every byte
of `IBUF` among them, and the model's own record of the outside. -/
structure KeepsInputs (s t : State) : Prop where
  ibuf : t.ibuf = s.ibuf
  ibuf_read : ∀ i, t.ibuf.read i = s.ibuf.read i
  ilen : t.ilen = s.ilen
  cmdl : t.cmdl = s.cmdl
  hostData : t.hostData = s.hostData
  inputs : t.inputs = s.inputs

/-- `t` is `s` after a successful completion (30_encoding R58) with the output bytes `out` and the point
register left at `(px, py)`: `STATUS` has `BUSY = 0`, `DONE = 1`, `ERR = 0` and is 0x0002, `OLEN` is the length
of the output, `OBUF[0 .. OLEN−1]` is the output, byte by byte, and the inputs are kept. -/
structure CompletesWith (s t : State) (out : ByteString) (px py : Word256) : Prop where
  status : t.status = 0x0002
  notBusy : statusBusy t.status = false
  done : statusDone t.status = true
  noError : statusErr t.status = 0
  olen : t.olen.toNat = out.length
  output : outputBytes t = out
  byte : ∀ i, i < out.length → obufByte t i = out.getD i 0
  px : t.px = px
  py : t.py = py
  keeps : KeepsInputs s t

/-- `t` is `s` after an error completion (60_exceptions R116): `STATUS` has `BUSY = 0`, `DONE = 1` and the code
of the error, `OLEN` is 0, and `PX`, `PY` and the inputs are kept. -/
structure FailsWith (s t : State) (e : CmdError) : Prop where
  status : t.status = BitVec.ofNat 16 (16 * e.code + 2)
  notBusy : statusBusy t.status = false
  done : statusDone t.status = true
  err : statusErr t.status = e.code
  olen : t.olen = 0
  px : t.px = s.px
  py : t.py = s.py
  keeps : KeepsInputs s t

/-- The command passes the capacity test (30_encoding R57 step 2). -/
abbrev State.fits (s : State) : Prop := s.ilen.toNat ≤ Config.params.ibufCap

/-- A command runs and no action of the outside comes before its completion (20_memory R40). -/
abbrev State.completesNext (s : State) : Prop := nextMove s = .complete

/-- No command runs and the next action of the outside is this one. -/
abbrev State.idleBefore (s : State) (a : Action) (rest : List Input) : Prop :=
  s.busy = false ∧ ∃ early, s.inputs = ⟨early, a⟩ :: rest

/-- All characters of a string are in the alphabet (40_base58check R63). -/
abbrev allSymbols (c : Params) (t : ByteString) : Prop := ∀ ch ∈ t, (symbolIndex c ch).isSome = true

/-- `k` steps of the machine, stopping at the first refusal. -/
def runSteps : Nat → State → Host.Outcome State Fault Refusal
  | 0, s => .next s
  | k + 1, s =>
    match step s with
    | .next t => runSteps k t
    | .fault r => .fault r
    | .refused r => .refused r

/-- The host has copied the output of `t` to the input of `u`, as `O2I` does (20_memory R33, 30_encoding R55). -/
abbrev CopiedOutput (t u : State) : Prop := u.ilen = t.olen ∧ inputBytes u = outputBytes t

/-- `t` is `s` but for what the host has read and the inputs that remain (20_memory R37). -/
abbrev SameUnit (s t : State) : Prop :=
  t = { s with hostData := t.hostData, inputs := t.inputs }

/-- The errors a command can complete with, the shell's two apart (60_exceptions R111, fourth column). -/
def ownErrors : Instr → List CmdError
  | .b58enc | .b58cenc | .pt2pk _ | .recy _ | .hash160 | .addr => []
  | .b58dec => [.invalidCharacter]
  | .b58cdec => [.invalidCharacter, .lengthError, .checksumError]
  | .pk2pt => [.lengthError, .invalidFormatError]
  | .wifenc _ | .sec2pk _ => [.lengthError]
  | .wifdec => [.invalidCharacter, .lengthError, .checksumError, .invalidFormatError]

end Sys2Proof.Machine
end

