-- ==== Sys2Proof/Certificates/Slice0/Obligations.lean ====
section
/-! DEFINITION. The statements about the B58KC unit that the provers settle. Each docstring names the rules of
spec/ it formalises; where a clause is the model's own choice it names the log entry. -/

open Sys2Proof Sys2Proof.Machine

/-! ### Reset, the invariant, and the order of steps -/

/-- 10_state R23: the value of every item after reset. -/
def Obligations.ResetValues : Prop :=
  (∀ i, State.reset.ibuf.read i = 0x00) ∧ (∀ i, obufByte State.reset i = 0x00) ∧
  State.reset.ilen = 0 ∧ State.reset.olen = 0 ∧ State.reset.px = 0 ∧ State.reset.py = 0 ∧
  State.reset.status = 0x0000 ∧ statusBusy State.reset.status = false ∧
  statusDone State.reset.status = false ∧ statusErr State.reset.status = 0 ∧ State.reset.cmdl = 0

/-- The reset state meets the invariant (10_state R18, R23; the canonical form is the model's, log entry 14). -/
def Obligations.ResetMeetsInvariant : Prop := State.reset.Inv

/-- Every step from a state that meets the invariant leads to one that does: the buffers stay canonical (the model's
own form, log entry 14) and inside their capacities (20_memory R30), the result fits `OBUF` (40_base58check R66), and
`STATUS` stays legal: reserved bits 0, `BUSY` and `DONE` never both 1, `ERR` at most 6 (10_state R18). -/
def Obligations.StepKeepsInvariant : Prop :=
  ∀ s t : State, s.Inv → step s = .next t → t.Inv

/-- 30_encoding R57: while a command runs and nothing of the outside comes first, a step is exactly the decoded
command's meaning on that state. -/
def Obligations.StepRunsDecodedCommand : Prop :=
  ∀ (s : State) (i : Instr), s.busy = true → (∀ x ∈ s.inputs.head?, x.early = false) →
    decode s.cmdl = .ok i → step s = exec i s

/-- 30_encoding R57, 20_memory R38, 70_reset R132: while a command runs, a step is a read of
`STATUS` or `CMD` and changes nothing of the unit, or completes the command, or is the event `Reset`, "the only way a
command can end without completing". -/
def Obligations.BusyUntilCompletionOrReset : Prop :=
  ∀ s t : State, s.busy = true → step s = .next t →
    (t.busy = true ∧ SameUnit s t ∧
      ∃ rest, s.inputs = ⟨true, .host (.read 0)⟩ :: rest ∨ s.inputs = ⟨true, .host (.read 1)⟩ :: rest) ∨
    (t.busy = false ∧ s.completesNext ∧ statusDone t.status = true ∧ KeepsInputs s t) ∨
    (t.busy = false ∧ statusDone t.status = false ∧ ∃ early rest, s.inputs = ⟨early, .reset⟩ :: rest)

/-- 70_reset R136: a running command ends. With any number of early reads of `STATUS` and `CMD`, the only accesses
allowed in the busy window, it has completed at the latest one step after all inputs. The bound by the list of
inputs is the model's schedule (log entry 5). -/
def Obligations.RunningCommandEnds : Prop :=
  ∀ s : State, s.busy = true →
    (∀ x ∈ s.inputs, x.early = true → x.act = .host (.read 0) ∨ x.act = .host (.read 1)) →
    ∃ k t, k ≤ s.inputs.length + 1 ∧ runSteps k s = .next t ∧ t.busy = false ∧
      statusDone t.status = true

/-- 70_reset R131 (which the spec marks "derived"): `B58ENC` issued directly after reset encodes the empty input. -/
def Obligations.FirstCommandAfterReset : Prop :=
  State.reset.busy = false ∧ State.reset.fits ∧
  ∃ t : State, runSteps 2 { State.reset with inputs := [⟨false, .host (.write 0 0x0001)⟩] } = .next t ∧
    t.olen = 0 ∧ statusErr t.status = 0 ∧ statusDone t.status = true

/-! ### Encoding -/

/-- 30_encoding R46, R48, R50: a word decodes to a command exactly if it is the command's word, so that decoding an
encoded command gives it back and each command has one word for each flag. -/
def Obligations.DecodeInvertsEncode : Prop :=
  (∀ i : Instr, i.wf ∧ decode (encode i) = .ok i) ∧
  ∀ (w : Word16) (i : Instr), decode w = .ok i → w = encode i

/-- 30_encoding R49, 60_exceptions R117: exactly the legal words decode, and each other word is rejected for the
test it fails. -/
def Obligations.IllegalWordsAreRejected : Prop :=
  ∀ w : Word16,
    ((∃ i, decode w = .ok i) ↔ legalWord w) ∧
    (decode w = .error .reservedBits ↔ w.toNat / 2 ^ 9 ≠ 0) ∧
    (decode w = .error .unknownOpcode ↔ w.toNat / 2 ^ 9 = 0 ∧ w.toNat % 2 ^ 8 ∉ opcodes) ∧
    (decode w = .error .flagNotAllowed ↔
      w.toNat / 2 ^ 9 = 0 ∧ w.toNat % 2 ^ 8 ∈ opcodes ∧ w.getLsbD 8 = true ∧ w.toNat % 2 ^ 8 ∉ flagOpcodes)

/-- 30_encoding R48: "the complete list of legal command words is therefore the sixteen values". -/
def Obligations.LegalWordsAreSixteen : Prop :=
  ∀ w : Word16, legalWord w ↔
    w ∈ ([0x0001, 0x0002, 0x0003, 0x0004, 0x0010, 0x0110, 0x0011, 0x0111, 0x0012, 0x0020, 0x0021, 0x0022,
      0x0122, 0x0023, 0x0024, 0x0124] : List Word16)

/-- 30_encoding R48, R50: the sixteen words written out from the opcode map decode to their commands. -/
def Obligations.SampleWordsDecode : Prop :=
  decode 0b0000000000000001 = .ok .b58enc ∧ decode 0b0000000000000010 = .ok .b58dec ∧
  decode 0b0000000000000011 = .ok .b58cenc ∧ decode 0b0000000000000100 = .ok .b58cdec ∧
  decode 0b0000000000010000 = .ok (.pt2pk false) ∧ decode 0b0000000100010000 = .ok (.pt2pk true) ∧
  decode 0b0000000000010001 = .ok (.recy false) ∧ decode 0b0000000100010001 = .ok (.recy true) ∧
  decode 0b0000000000010010 = .ok .pk2pt ∧ decode 0b0000000000100000 = .ok .hash160 ∧
  decode 0b0000000000100001 = .ok .addr ∧ decode 0b0000000000100010 = .ok (.wifenc false) ∧
  decode 0b0000000100100010 = .ok (.wifenc true) ∧ decode 0b0000000000100011 = .ok .wifdec ∧
  decode 0b0000000000100100 = .ok (.sec2pk false) ∧ decode 0b0000000100100100 = .ok (.sec2pk true)

/-- 30_encoding R53: the mnemonics, with `.C` when `C = 1`, and the words they stand for; the suffix is not allowed
on the other eight. -/
def Obligations.MnemonicsNameCommands : Prop :=
  (∀ i : Instr, assemble i.name = some i) ∧
  (assemble "PT2PK").map encode = some 0x0010 ∧ (assemble "PT2PK.C").map encode = some 0x0110 ∧
  (assemble "RECY").map encode = some 0x0011 ∧ (assemble "RECY.C").map encode = some 0x0111 ∧
  (assemble "WIFENC").map encode = some 0x0022 ∧ (assemble "WIFENC.C").map encode = some 0x0122 ∧
  (assemble "SEC2PK").map encode = some 0x0024 ∧ (assemble "SEC2PK.C").map encode = some 0x0124 ∧
  ∀ m ∈ ["B58ENC.C", "B58DEC.C", "B58CENC.C", "B58CDEC.C", "PK2PT.C", "HASH160.C", "ADDR.C", "WIFDEC.C"],
    assemble m = none

/-! ### The host's side -/

/-- 30_encoding R56: the issue step, for any 16-bit word, and its refusal while a command runs. -/
def Obligations.IssueStep : Prop :=
  ∀ (s : State) (w : Nat) (rest : List Input), w < 2 ^ 16 →
    (s.idleBefore (.host (.write 0 w)) rest →
      ∃ t, step s = .next t ∧ t.cmdl.toNat = w ∧ statusBusy t.status = true ∧
        statusDone t.status = false ∧ statusErr t.status = 0 ∧
        t = { s with cmdl := t.cmdl, status := t.status, inputs := rest }) ∧
    (s.busy = true → s.inputs = ⟨true, .host (.write 0 w)⟩ :: rest → step s = .refused .busyAccess)

/-- 20_memory R43, 70_reset R134, R135: in the busy window every access of the host other than a read of `STATUS`
or `CMD` is refused, none is ignored. -/
def Obligations.BusyWindowRefusesAccess : Prop :=
  ∀ (s : State) (a : HostAccess) (rest : List Input), s.busy = true →
    s.inputs = ⟨true, .host a⟩ :: rest → a ≠ .read 0 → a ≠ .read 1 →
    step s = .refused .busyAccess ∨
      (step s = .refused .noSuchRegister ∧ ∃ r, 6 ≤ r ∧ (a = .read r ∨ ∃ v, a = .write r v))

/-- 20_memory R43 (first two rows), R37, 10_state R18, R19: `STATUS` and `CMD` can be read at any time, `CMD` reads
0, the reserved bits of `STATUS` read as 0, and the read changes nothing. -/
def Obligations.StatusReadAnyTime : Prop :=
  ∀ (s : State) (early : Bool) (rest : List Input), (s.busy = true → early = true) →
    (s.inputs = ⟨early, .host (.read 1)⟩ :: rest →
      ∃ t, step s = .next t ∧ SameUnit s t ∧ t.inputs = rest ∧
        t.hostData.toNat % 2 = (statusBusy s.status).toNat ∧
        t.hostData.toNat / 2 % 2 = (statusDone s.status).toNat ∧
        t.hostData.toNat / 2 ^ 2 % 4 = 0 ∧
        t.hostData.toNat / 2 ^ 4 % 16 = statusErr s.status ∧ t.hostData.toNat < 2 ^ 8) ∧
    (s.inputs = ⟨early, .host (.read 0)⟩ :: rest →
      ∃ t, step s = .next t ∧ SameUnit s t ∧ t.inputs = rest ∧ t.hostData = 0)

/-- 20_memory R43: reads and writes of the registers while no command runs. -/
def Obligations.RegisterAccessWhenIdle : Prop :=
  ∀ s : State, s.busy = false →
    (∃ t, hostAccess (.read 2) s = .next t ∧ SameUnit s t ∧ t.hostData.toNat = s.ilen.toNat) ∧
    (∃ t, hostAccess (.read 3) s = .next t ∧ SameUnit s t ∧ t.hostData.toNat = s.olen.toNat) ∧
    (∃ t, hostAccess (.read 4) s = .next t ∧ SameUnit s t ∧ t.hostData = s.px) ∧
    (∃ t, hostAccess (.read 5) s = .next t ∧ SameUnit s t ∧ t.hostData = s.py) ∧
    (∀ v, v < 2 ^ 16 → ∃ t, hostAccess (.write 2 v) s = .next t ∧ t = { s with ilen := t.ilen } ∧
      t.ilen.toNat = v) ∧
    (∀ v, v < 2 ^ 256 → ∃ t, hostAccess (.write 4 v) s = .next t ∧ t = { s with px := t.px } ∧
      t.px.toNat = v) ∧
    (∀ v, v < 2 ^ 256 → ∃ t, hostAccess (.write 5 v) s = .next t ∧ t = { s with py := t.py } ∧
      t.py.toNat = v) ∧
    ∀ v, hostAccess (.write 1 v) s = .next s ∧ hostAccess (.write 3 v) s = .next s

/-- 20_memory R43: a write to `IBUF` replaces one byte and nothing else; a read returns the byte and changes
nothing. That the buffer stays in the canonical form (`t.ibuf.wf`) is the model's own clause, log entry 14. -/
def Obligations.InputBufferAccess : Prop :=
  ∀ (s : State) (i : Nat) (b : Byte), s.Inv → s.busy = false → i < Config.params.ibufCap →
    (∃ t, hostAccess (.writeIbuf i b) s = .next t ∧ t.ibuf.wf = true ∧
      (∀ j, t.ibuf.read j = if j = i then b else s.ibuf.read j) ∧ t = { s with ibuf := t.ibuf }) ∧
    ∃ t, hostAccess (.readIbuf i) s = .next t ∧ SameUnit s t ∧ t.hostData.toNat = (s.ibuf.read i).toNat

/-- 20_memory R34, R43: a read of `OBUF` inside the result returns the byte; a read beyond it returns some byte and
leaves every item of the unit as it was. (That each such read draws anew is the model's, log entry 8.) -/
def Obligations.OutputBufferRead : Prop :=
  ∀ (s : State) (i : Nat), s.busy = false → i < Config.params.obufCap →
    (i < s.olen.toNat →
      ∃ t, hostAccess (.readObuf i) s = .next t ∧ SameUnit s t ∧
        t.hostData.toNat = (obufByte s i).toNat) ∧
    (s.olen.toNat ≤ i →
      ∃ t, hostAccess (.readObuf i) s = .next t ∧ t.hostData.toNat < 256 ∧
        t = { s with hostData := t.hostData, draws := t.draws })

/-- 20_memory R36, R43: an access to a register number of 6 or more, or to a buffer index outside its capacity, is
refused, whether a command runs or not. A value that does not fit the register is refused too (log entry 9). -/
def Obligations.OutsideAccessRefused : Prop :=
  ∀ s : State,
    (∀ r v, 6 ≤ r → hostAccess (.read r) s = .refused .noSuchRegister ∧
      hostAccess (.write r v) s = .refused .noSuchRegister) ∧
    (s.busy = false →
      (∀ i b, Config.params.ibufCap ≤ i → hostAccess (.writeIbuf i b) s = .refused .indexOutsideBuffer ∧
        hostAccess (.readIbuf i) s = .refused .indexOutsideBuffer) ∧
      (∀ i, Config.params.obufCap ≤ i → hostAccess (.readObuf i) s = .refused .indexOutsideBuffer) ∧
      (∀ v, 2 ^ 16 ≤ v → hostAccess (.write 0 v) s = .refused .valueTooWide ∧
        hostAccess (.write 2 v) s = .refused .valueTooWide) ∧
      ∀ v, 2 ^ 256 ≤ v → hostAccess (.write 4 v) s = .refused .valueTooWide ∧
        hostAccess (.write 5 v) s = .refused .valueTooWide)

/-- 70_reset R130, R132: the event `Reset` at any time, a running command abandoned. -/
def Obligations.ResetEventWhole : Prop :=
  ∀ (s : State) (early : Bool) (rest : List Input), (s.busy = true → early = true) →
    s.inputs = ⟨early, .reset⟩ :: rest →
    ∃ t, step s = .next t ∧ (∀ i, t.ibuf.read i = 0x00) ∧ (∀ i, obufByte t i = 0x00) ∧ t.ilen = 0 ∧
      t.olen = 0 ∧ t.px = 0 ∧ t.py = 0 ∧ t.status = 0x0000 ∧ t.busy = false ∧
      statusDone t.status = false ∧ t.cmdl = 0

/-- 30_encoding R55 (`LDI`): after the lines of the macro the input is the bytes, and nothing else of the unit has
changed, the bytes of `IBUF` beyond them neither. -/
def Obligations.LdiLoadsInput : Prop :=
  ∀ (h : HostRun) (bs : ByteString) (rest : List HostLine),
    h.unit.Inv → h.unit.busy = false → bs.length ≤ Config.params.ibufCap → h.todo = macroLdi bs ++ rest →
    ∃ h', HostRun.run (List.replicate (bs.length + 1) .host) h = .next h' ∧ h'.todo = rest ∧
      inputBytes h'.unit = bs ∧ h'.unit.ilen.toNat = bs.length ∧
      (∀ j, bs.length ≤ j → h'.unit.ibuf.read j = h.unit.ibuf.read j) ∧
      h'.unit = { h.unit with ibuf := h'.unit.ibuf, ilen := h'.unit.ilen, inputs := h'.unit.inputs }

/-- 30_encoding R55 (`O2I`), 20_memory R33: after the lines of the macro the input is the output. The count of
`2·OLEN + 3` host steps is the model's: `O2I` has one further line that expands when the length is known (log
entry 19), where R55's expansion has `2·OLEN + 2` lines. -/
def Obligations.CopyMacroMovesOutput : Prop :=
  ∀ (h : HostRun) (rest : List HostLine),
    h.unit.Inv → h.unit.busy = false → h.unit.olen.toNat ≤ Config.params.ibufCap →
    h.todo = macroO2i ++ rest →
    ∃ h', HostRun.run (List.replicate (2 * h.unit.olen.toNat + 3) .host) h = .next h' ∧ h'.todo = rest ∧
      CopiedOutput h.unit h'.unit ∧ outputBytes h'.unit = outputBytes h.unit ∧
      h'.unit.px = h.unit.px ∧ h'.unit.py = h.unit.py ∧ h'.unit.status = h.unit.status

/-! ### All commands -/

/-- 60_exceptions R117: `IllegalCommand` exactly when the word is not legal, whatever else is wrong. -/
def Obligations.IllegalCommandExactly : Prop :=
  ∀ s : State, s.completesNext →
    (¬ legalWord s.cmdl →
      ∃ t, step s = .next t ∧ FailsWith s t .illegalCommand ∧ t.status = 0x0052) ∧
    (legalWord s.cmdl → ∃ t, step s = .next t ∧ statusErr t.status ≠ 5)

/-- 60_exceptions R118, 30_encoding R57: `CapacityError` exactly when a legal command has `ILEN > IBUF_CAP`,
whatever the input holds; a result always fits `OBUF`. -/
def Obligations.CapacityErrorExactly : Prop :=
  ∀ s : State, s.completesNext → legalWord s.cmdl →
    (Config.params.ibufCap < s.ilen.toNat →
      ∃ t, step s = .next t ∧ FailsWith s t .capacityError ∧ t.status = 0x0062) ∧
    (s.ilen.toNat ≤ Config.params.ibufCap →
      ∃ t, step s = .next t ∧ statusErr t.status ≠ 6 ∧
        t.olen.toNat ≤ Config.params.obufCap)

/-- 60_exceptions R112: the commands that complete with `InvalidCharacter`, and exactly when: `B58DEC`, `B58CDEC`
and `WIFDEC`, on an input with a byte outside the alphabet, wherever it stands. (A command that does not pass the
capacity test applies `b58dec` to nothing.) -/
def Obligations.InvalidCharacterExactly : Prop :=
  ∀ (i : Instr) (s : State),
    (∃ t, exec i s = .next t ∧ FailsWith s t .invalidCharacter ∧ t.status = 0x0012) ↔
      s.fits ∧ (i = .b58dec ∨ i = .b58cdec ∨ i = .wifdec) ∧
        ∃ ch ∈ inputBytes s, symbolIndex Config.params ch = none

/-- 60_exceptions R113: the commands that complete with `ChecksumError`, and exactly when: `B58CDEC` and `WIFDEC`,
on an input that decodes to at least 4 bytes whose last 4 differ from `cksum` of the bytes before them. -/
def Obligations.ChecksumErrorExactly : Prop :=
  ∀ (i : Instr) (s : State),
    (∃ t, exec i s = .next t ∧ FailsWith s t .checksumError ∧ t.status = 0x0022) ↔
      s.fits ∧ (i = .b58cdec ∨ i = .wifdec) ∧
        ∃ p k, b58dec Config.params (inputBytes s) = .ok (p ++ k) ∧ k.length = 4 ∧ cksum Config.params p ≠ k

/-- 60_exceptions R114: the commands that complete with `LengthError`, and exactly when: (a) `B58CDEC` and `WIFDEC`
decoding fewer than 4 bytes, (b) `WIFENC` and (c) `SEC2PK` with `ILEN ≠ 32`, (d) `PK2PT` on an empty input or on a
length that does not fit its marker. -/
def Obligations.LengthErrorExactly : Prop :=
  ∀ (i : Instr) (s : State),
    (∃ t, exec i s = .next t ∧ FailsWith s t .lengthError ∧ t.status = 0x0032) ↔
      s.fits ∧
        (((i = .b58cdec ∨ i = .wifdec) ∧ ∃ d, b58dec Config.params (inputBytes s) = .ok d ∧ d.length < 4) ∨
        ((∃ c, i = .wifenc c) ∧ s.ilen ≠ 32) ∨
        ((∃ c, i = .sec2pk c) ∧ s.ilen ≠ 32) ∨
        (i = .pk2pt ∧ (s.ilen = 0 ∨ ((inputBytes s).head? = some 0x04 ∧ s.ilen ≠ 65) ∨
          (((inputBytes s).head? = some 0x02 ∨ (inputBytes s).head? = some 0x03) ∧ s.ilen ≠ 33))))

/-- 60_exceptions R115: the commands that complete with `InvalidFormatError`, and exactly when: (a) `PK2PT` on a
first byte that is no marker, (b) `WIFDEC` on a good checksum and a payload of neither 33 nor 34 bytes. -/
def Obligations.InvalidFormatErrorExactly : Prop :=
  ∀ (i : Instr) (s : State),
    (∃ t, exec i s = .next t ∧ FailsWith s t .invalidFormatError ∧ t.status = 0x0042) ↔
      s.fits ∧
        ((i = .pk2pt ∧ ∃ m, (inputBytes s).head? = some m ∧ m ≠ 0x02 ∧ m ≠ 0x03 ∧ m ≠ 0x04) ∨
        (i = .wifdec ∧ ∃ p, b58cdec Config.params (inputBytes s) = .ok p ∧ p.length ≠ 33 ∧ p.length ≠ 34))

/-- 60_exceptions R111 (columns "code" and "raised by commands"), 30_encoding R58: a command that passes the capacity
test completes, with a result or with an error of its own; the codes of all six errors, and `STATUS` after each. -/
def Obligations.CommandsRaiseOnlyTheirErrors : Prop :=
  (∀ (i : Instr) (s : State), s.fits →
    ∃ t, exec i s = .next t ∧
      ((∃ out px py, CompletesWith s t out px py) ∨ ∃ e ∈ ownErrors i, FailsWith s t e)) ∧
  ∀ (e : CmdError) (s t : State), FailsWith s t e →
    (e = .invalidCharacter ∧ statusErr t.status = 1 ∧ t.status = 0x0012) ∨
    (e = .checksumError ∧ statusErr t.status = 2 ∧ t.status = 0x0022) ∨
    (e = .lengthError ∧ statusErr t.status = 3 ∧ t.status = 0x0032) ∨
    (e = .invalidFormatError ∧ statusErr t.status = 4 ∧ t.status = 0x0042) ∨
    (e = .illegalCommand ∧ statusErr t.status = 5 ∧ t.status = 0x0052) ∨
    (e = .capacityError ∧ statusErr t.status = 6 ∧ t.status = 0x0062)

/-- 10_state R12, R14, R15: no command writes `IBUF`, `ILEN` or `CMDL`; `PX` is written by `PK2PT` and `SEC2PK`
only, `PY` by these and `RECY`; a command that completes with an error writes neither. -/
def Obligations.PointRegisterWriters : Prop :=
  ∀ (i : Instr) (s : State), ∃ t, exec i s = .next t ∧ KeepsInputs s t ∧
    ((i ≠ .pk2pt ∧ ∀ c, i ≠ .sec2pk c) → t.px = s.px) ∧
    ((i ≠ .pk2pt ∧ (∀ c, i ≠ .sec2pk c) ∧ ∀ c, i ≠ .recy c) → t.py = s.py) ∧
    (statusErr t.status ≠ 0 → t.px = s.px ∧ t.py = s.py ∧ t.olen = 0)

/-- 00_scope R9, 20_memory R44 (the latter marked "derived" by the spec): what a command delivers depends on the
command word, `ILEN`, the input bytes below `ILEN`, `PX` and `PY` alone. -/
def Obligations.CommandResultIsPure : Prop :=
  ∀ s₁ s₂ : State, s₁.cmdl = s₂.cmdl → s₁.ilen = s₂.ilen →
    (∀ i, i < s₁.ilen.toNat → s₁.ibuf.read i = s₂.ibuf.read i) → s₁.px = s₂.px → s₁.py = s₂.py →
    ∃ t₁ t₂, completeStep s₁ = .next t₁ ∧ completeStep s₂ = .next t₂ ∧ t₁.status = t₂.status ∧
      t₁.olen = t₂.olen ∧ outputBytes t₁ = outputBytes t₂ ∧ t₁.px = t₂.px ∧ t₁.py = t₂.py

/-- The bytes of `OBUF` outside the result are free bytes of the completion's own draw, after a success and after
an error, of an illegal word too: the model's form of "any value" in 20_memory R34 and 60_exceptions R116 (log
entry 7). -/
def Obligations.OutsideResultIsFree : Prop :=
  (∀ s : State, ∃ t, completeStep s = .next t ∧ t.draws = s.draws + 1 ∧
    ∀ j, t.olen.toNat ≤ j → obufByte t j = Config.scratchByte s.draws j) ∧
  ∀ (i : Instr) (s : State), ∃ t, exec i s = .next t ∧ t.draws = s.draws + 1 ∧
    ∀ j, t.olen.toNat ≤ j → obufByte t j = Config.scratchByte s.draws j

/-! ### Base58Check codec -/

/-- 40_base58check R65: base-58 encoding and decoding are inverse to each other, both ways, over any alphabet of 58
distinct characters. The second half is R65 (b), which the spec marks "derived". -/
def Obligations.Base58RoundTrip : Prop :=
  ∀ c : Params, alphabetWf c.alphabet →
    (∀ s, b58dec c (b58enc c s) = .ok s) ∧
    ∀ t, allSymbols c t → ∃ s, b58dec c t = .ok s ∧ b58enc c s = t

/-- 40_base58check R66: the length bounds of encoding and decoding, and the exact length of an encoding.
The spec marks R66 "derived". -/
def Obligations.Base58Lengths : Prop :=
  ∀ c : Params, alphabetWf c.alphabet →
    (∀ s, s.length ≤ (b58enc c s).length ∧ (b58enc c s).length ≤ 2 * s.length) ∧
    (∀ s, be2nat s = 0 → (b58enc c s).length = lz s) ∧
    (∀ s, be2nat s ≠ 0 → ∃ k, (b58enc c s).length = lz s + k ∧ 58 ^ (k - 1) ≤ be2nat s ∧
      be2nat s < 58 ^ k) ∧
    ∀ t s, b58dec c t = .ok s → s.length ≤ t.length

/-- 40_base58check R62, R63: the value is kept as a base-58 number, most significant digit first; the text of a
string of zero bytes is as many zero symbols, and the part that is not leading zeros starts with another symbol. -/
def Obligations.Base58DigitsAndZeros : Prop :=
  ∀ c : Params, alphabetWf c.alphabet →
    (∀ s, ∃ ds, charDigits c (b58enc c s) = some ds ∧ digitsValue 58 ds = be2nat s ∧
      leadingCount (zeroSymbol c) (b58enc c s) = lz s) ∧
    (∀ k, b58enc c (List.replicate k 0x00) = List.replicate k (zeroSymbol c)) ∧
    ∀ k, b58dec c (List.replicate k (zeroSymbol c)) = .ok (List.replicate k 0x00)

/-- 40_base58check R70, R64, 60_exceptions R113, R119: the verdict of checked decoding, in the order alphabet,
length, checksum, where the checksum is the first four bytes of the double digest. -/
def Obligations.CheckedDecodeVerdict : Prop :=
  ∀ (c : Params) (t : ByteString),
    (∀ p, cksum c p = (c.sha256 (c.sha256 p).toList).toList.take 4 ∧ (cksum c p).length = 4) ∧
    (¬ allSymbols c t → b58cdec c t = .error .invalidCharacter) ∧
    (∀ d, b58dec c t = .ok d → d.length < 4 → b58cdec c t = .error .lengthError) ∧
    ∀ p k, b58dec c t = .ok (p ++ k) → k.length = 4 →
      (cksum c p = k → b58cdec c t = .ok p) ∧ (cksum c p ≠ k → b58cdec c t = .error .checksumError)

/-- 40_base58check R73 (a): checked decoding gives back what checked encoding was given, for every payload. -/
def Obligations.CheckedRoundTrip : Prop :=
  ∀ c : Params, alphabetWf c.alphabet → ∀ p, b58cdec c (b58cenc c p) = .ok p

/-- 40_base58check R67: `B58ENC` completes with the encoding of its input. -/
def Obligations.B58encCompletes : Prop :=
  ∀ s : State, s.fits →
    ∃ t, exec .b58enc s = .next t ∧
      CompletesWith s t (b58enc Config.params (inputBytes s)) s.px s.py

/-- 40_base58check R68: `B58DEC` completes with the decoding of an input over the alphabet. -/
def Obligations.B58decCompletes : Prop :=
  ∀ s : State, s.fits → allSymbols Config.params (inputBytes s) →
    ∃ out t, b58dec Config.params (inputBytes s) = .ok out ∧ exec .b58dec s = .next t ∧
      CompletesWith s t out s.px s.py

/-- 40_base58check R71, R64: `B58CENC` completes with the encoding of the payload and its checksum, the first four
bytes of the SHA-256 digest of the SHA-256 digest of the payload. -/
def Obligations.B58cencCompletes : Prop :=
  ∀ s : State, s.fits →
    ∃ t, exec .b58cenc s = .next t ∧
      CompletesWith s t
        (b58enc Config.params
          (inputBytes s ++ (Config.sha256 (Config.sha256 (inputBytes s)).toList).toList.take 4)) s.px s.py

/-- 40_base58check R72: `B58CDEC` completes with the payload of an input whose checksum is right. -/
def Obligations.B58cdecCompletes : Prop :=
  ∀ (s : State) (p : ByteString), s.fits →
    b58dec Config.params (inputBytes s) = .ok (p ++ cksum Config.params p) →
    ∃ t, exec .b58cdec s = .next t ∧ CompletesWith s t p s.px s.py

/-! ### Key/Point codec -/

/-- 41_keypoint R81, R82: the two forms of public-key bytes. -/
def Obligations.PublicKeyLayout : Prop :=
  ∀ x y : Nat, x < 2 ^ 256 → y < 2 ^ 256 →
    (∃ xb, pt2pk x y true = (if y % 2 = 0 then 0x02 else 0x03) :: xb ∧ xb.length = 32 ∧ be2nat xb = x) ∧
    ∃ xb yb, pt2pk x y false = 0x04 :: (xb ++ yb) ∧ xb.length = 32 ∧ yb.length = 32 ∧ be2nat xb = x ∧
      be2nat yb = y

/-- 41_keypoint R85, R80: the parity of a recovered Y is the one wanted, it fits `PY`, and an X of `P` or more
counts as its residue. The spec marks the parity "derived". -/
def Obligations.RecoveredYParity : Prop :=
  ∀ (c : Curve) (x : Nat) (wantOdd : Bool), c.wf →
    (recy c x wantOdd % 2 = 1 ↔ wantOdd = true) ∧ recy c x wantOdd ≤ c.p ∧ recy c x wantOdd < 2 ^ 256 ∧
    recy c x wantOdd = recy c (x % c.p) wantOdd

/-- 41_keypoint R84, the table: what a recovered Y is when `y2` is a non-zero square, not a square, and zero.
The spec marks the table "derived" (from R84 and Euler's criterion). -/
def Obligations.RecoveredYCases : Prop :=
  ∀ (c : Curve) (x : Nat) (wantOdd : Bool), c.wf →
    ((∃ z, curveRhs c x = z ^ 2 % c.p) → curveRhs c x ≠ 0 →
      recy c x wantOdd ^ 2 % c.p = curveRhs c x ∧ 1 ≤ recy c x wantOdd ∧ recy c x wantOdd ≤ c.p - 1) ∧
    ((¬ ∃ z, curveRhs c x = z ^ 2 % c.p) →
      recy c x wantOdd ^ 2 % c.p = c.p - curveRhs c x ∧ recy c x wantOdd ^ 2 % c.p ≠ curveRhs c x) ∧
    (curveRhs c x = 0 → recy c x wantOdd = if wantOdd then c.p else 0)

/-- 41_keypoint R89: parsing gives back the point that was serialised, always in the uncompressed form, and in the
compressed form exactly when Y is the recovered one, in particular for a point on the curve. The spec marks these
sentences of R89 "derived". -/
def Obligations.PointRoundTrip : Prop :=
  ∀ (c : Curve) (x y : Nat), c.wf → x < 2 ^ 256 → y < 2 ^ 256 →
    pk2pt c (pt2pk x y false) = .ok (x, y) ∧
    (pk2pt c (pt2pk x y true) = .ok (x, y) ↔ y = recy c x (decide (y % 2 = 1))) ∧
    (1 ≤ y → y ≤ c.p - 1 → y ^ 2 % c.p = (x ^ 3 + c.a * x ^ 2 + c.b) % c.p →
      pk2pt c (pt2pk x y true) = .ok (x, y))

/-- 41_keypoint R83: `PT2PK` completes with the bytes of the point register. -/
def Obligations.Pt2pkCompletes : Prop :=
  ∀ (c : Bool) (s : State), s.fits →
    ∃ t, exec (.pt2pk c) s = .next t ∧ CompletesWith s t (pt2pk s.px.toNat s.py.toNat c) s.px s.py ∧
      t.olen.toNat = if c then 33 else 65

/-- 41_keypoint R85: `RECY` completes with the recovered Y in `PY` and an empty output. -/
def Obligations.RecyCompletes : Prop :=
  ∀ (c : Bool) (s : State), s.fits →
    ∃ t, exec (.recy c) s = .next t ∧ CompletesWith s t [] s.px t.py ∧
      t.py.toNat = recy Config.params.curve s.px.toNat c

/-- 41_keypoint R86, R88: `PK2PT` completes with the point, in the uncompressed and in the compressed form. -/
def Obligations.Pk2ptCompletes : Prop :=
  ∀ (s : State) (m : Byte) (body : ByteString), s.fits → inputBytes s = m :: body →
    (m = 0x04 → body.length = 64 →
      ∃ t, exec .pk2pt s = .next t ∧ CompletesWith s t [] t.px t.py ∧
        t.px.toNat = be2nat (body.take 32) ∧ t.py.toNat = be2nat (body.drop 32)) ∧
    (m = 0x02 ∨ m = 0x03 → body.length = 32 →
      ∃ t, exec .pk2pt s = .next t ∧ CompletesWith s t [] t.px t.py ∧
        t.px.toNat = be2nat body ∧
        t.py.toNat = recy Config.params.curve (be2nat body) (decide (m = 0x03)))

/-- 41_keypoint R83, R88, R89 on the machine: compressing a point of the curve, copying the output to the input and
parsing it gives the point back, with the default curve. Rests on what the spec marks "derived" in R89. -/
def Obligations.CompressThenParse : Prop :=
  ∀ s : State, s.fits → 1 ≤ s.py.toNat → s.py.toNat ≤ Config.params.curve.p - 1 →
    s.py.toNat ^ 2 % Config.params.curve.p = curveRhs Config.params.curve s.px.toNat →
    ∃ t, exec (.pt2pk true) s = .next t ∧
      ∀ u, CopiedOutput t u → ∃ v, exec .pk2pt u = .next v ∧ CompletesWith u v [] s.px s.py

/-! ### Derivation glue -/

/-- 42_derivation R96: `HASH160` completes with the 20 digest bytes of the collaborators. -/
def Obligations.Hash160Completes : Prop :=
  ∀ s : State, s.fits →
    ∃ t, exec .hash160 s = .next t ∧ t.olen = 20 ∧
      CompletesWith s t (Config.ripemd160 (Config.sha256 (inputBytes s)).toList).toList s.px s.py

/-- 42_derivation R97: `ADDR` completes with the address, whatever its input; the address starts with the zero
symbol and has 25 to 50 characters (these two marked "derived" by the spec). -/
def Obligations.AddrCompletes : Prop :=
  ∀ s : State, s.fits →
    ∃ t, exec .addr s = .next t ∧
      CompletesWith s t (b58cenc Config.params (0x00 :: hash160 Config.params (inputBytes s))) s.px s.py ∧
      (outputBytes t).head? = some (zeroSymbol Config.params) ∧ 25 ≤ t.olen.toNat ∧ t.olen.toNat ≤ 50

/-- 42_derivation R98: `WIFENC` completes with the WIF string of a 32-byte secret. -/
def Obligations.WifencCompletes : Prop :=
  ∀ (c : Bool) (s : State), s.ilen = 32 →
    ∃ t, exec (.wifenc c) s = .next t ∧
      CompletesWith s t
        (b58cenc Config.params ([0x80] ++ inputBytes s ++ if c then [0x01] else [])) s.px s.py

/-- 42_derivation R99: `WIFDEC` completes with bytes 1 to 32 of a payload of 33 or 34 bytes, whatever its first and
its last byte. -/
def Obligations.WifdecCompletes : Prop :=
  ∀ (s : State) (v : Byte) (secret tail : ByteString), s.fits → secret.length = 32 → tail.length ≤ 1 →
    b58dec Config.params (inputBytes s)
      = .ok (v :: secret ++ tail ++ cksum Config.params (v :: secret ++ tail)) →
    ∃ t, exec .wifdec s = .next t ∧ CompletesWith s t secret s.px s.py ∧ t.olen = 32

/-- 42_derivation R101: `WIFENC` of a secret, its output copied to the input, and `WIFDEC` give the secret back, for
either flag. The spec marks this form of R101 "derived". -/
def Obligations.WifRoundTrip : Prop :=
  ∀ (c : Bool) (s : State), s.ilen = 32 →
    ∃ t, exec (.wifenc c) s = .next t ∧ statusErr t.status = 0 ∧
      ∀ u, CopiedOutput t u →
        ∃ v, exec .wifdec u = .next v ∧ v.olen = 32 ∧ CompletesWith u v (inputBytes s) u.px u.py

/-- 42_derivation R100: `SEC2PK` completes with the collaborator's point in `PX`, `PY` and its public-key bytes; the
secret is not range-checked. -/
def Obligations.Sec2pkCompletes : Prop :=
  ∀ (c : Bool) (s : State), s.ilen = 32 →
    ∃ t, exec (.sec2pk c) s = .next t ∧
      CompletesWith s t
        (pt2pk (Config.scalarMult (be2nat (inputBytes s))).1.toNat
          (Config.scalarMult (be2nat (inputBytes s))).2.toNat c)
        (Config.scalarMult (be2nat (inputBytes s))).1 (Config.scalarMult (be2nat (inputBytes s))).2 ∧
      t.olen.toNat = if c then 33 else 65
end

