-- ==== Sys2Proof/Laws/Bytes.lean ====
section
/-! SUPPORT. The laws of the number and byte-string operations (spec 00_scope section 6). -/

namespace Sys2Proof.Machine

@[simp] theorem be2nat_nil : be2nat [] = 0 := rfl

/-- `be2nat` is the value in base 256 of the bytes. -/
theorem be2nat_eq_digitsValue (s : ByteString) : be2nat s = digitsValue 256 (s.map BitVec.toNat) := by
  simp [be2nat, digitsValue, List.foldl_map]

theorem digitsValue_append (base : Nat) (ds : List Nat) (d : Nat) :
    digitsValue base (ds ++ [d]) = digitsValue base ds * base + d := by
  simp [digitsValue]

@[simp] theorem digitsValue_nil (base : Nat) : digitsValue base [] = 0 := rfl

theorem be2nat_concat (s : ByteString) (b : Byte) : be2nat (s ++ [b]) = be2nat s * 256 + b.toNat := by
  simp [be2nat]

/-- The value of an `n`-byte string is below `256^n` (40_base58check R60). -/
theorem be2nat_lt (s : ByteString) : be2nat s < 256 ^ s.length := by
  induction s using List.reverseRecOn with
  | nil => simp
  | append_singleton s b ih =>
    rw [be2nat_concat, List.length_append, List.length_singleton, pow_succ]
    have := b.isLt
    omega

@[simp] theorem length_nat2be (n k : Nat) : (nat2be n k).length = k := by
  induction k generalizing n with
  | zero => rfl
  | succ k ih => simp [nat2be, ih]

/-- `be2nat(nat2be(n, k)) = n` for `n < 256^k`. -/
theorem be2nat_nat2be (n k : Nat) (h : n < 256 ^ k) : be2nat (nat2be n k) = n := by
  induction k generalizing n with
  | zero => simp at h; simp [nat2be, h]
  | succ k ih =>
    rw [nat2be, be2nat_concat, ih (n / 256) (by rw [pow_succ] at h; omega)]
    simp
    omega

/-- A byte string is the fixed-width form of its value. -/
theorem nat2be_be2nat (s : ByteString) : nat2be (be2nat s) s.length = s := by
  induction s using List.reverseRecOn with
  | nil => rfl
  | append_singleton s b ih =>
    rw [List.length_append, List.length_singleton, nat2be, be2nat_concat]
    have hb := b.isLt
    have h1 : (be2nat s * 256 + b.toNat) / 256 = be2nat s := by omega
    have h2 : BitVec.ofNat 8 (be2nat s * 256 + b.toNat) = b := by
      apply BitVec.eq_of_toNat_eq
      simp
      omega
    rw [h1, h2, ih]

/-! ### Digits -/

/-- The loop ends before its rounds do: it yields Mathlib's digits. -/
theorem digitLoop_eq (base : Nat) (hb : 2 ≤ base) (rounds n : Nat) (h : n < 2 ^ rounds) :
    digitLoop base rounds n = Nat.digits base n := by
  induction rounds generalizing n with
  | zero => have : n = 0 := by simpa using h
            subst this; simp [digitLoop]
  | succ rounds ih =>
    rw [digitLoop]
    split
    · rename_i h0; subst h0; simp
    · rename_i h0
      have hlt : n / base < 2 ^ rounds := by
        have : n / base ≤ n / 2 := Nat.div_le_div_left hb (by norm_num)
        rw [pow_succ] at h
        omega
      rw [ih _ hlt]
      exact (Nat.digits_def' (by omega) (Nat.pos_of_ne_zero h0)).symm

theorem digitsLE_eq (base : Nat) (hb : 2 ≤ base) (n : Nat) : digitsLE base n = Nat.digits base n :=
  digitLoop_eq base hb _ n Nat.lt_log2_self

/-- The value of a number's digits is the number. -/
theorem digitsValue_reverse_eq (base : Nat) (ds : List Nat) :
    digitsValue base ds.reverse = Nat.ofDigits base ds := by
  induction ds with
  | nil => rfl
  | cons d ds ih =>
    rw [List.reverse_cons, digitsValue_append, ih, Nat.ofDigits_cons]
    ring

/-! ### The modular power -/

theorem powModLoop_eq (m rounds b e acc : Nat) (h : e < 2 ^ rounds) :
    powModLoop m rounds b e acc = acc * b ^ e % m := by
  induction rounds generalizing b e acc with
  | zero => have : e = 0 := by simpa using h
            subst this; simp [powModLoop]
  | succ rounds ih =>
    rw [powModLoop]
    split
    · rename_i h0; subst h0; simp
    · rw [ih _ _ _ (by rw [pow_succ] at h; omega)]
      have hsq : (b * b % m) ^ (e / 2) ≡ (b * b) ^ (e / 2) [MOD m] := (Nat.mod_modEq _ _).pow _
      have hpow : b ^ e = (b * b) ^ (e / 2) * b ^ (e % 2) := by
        rw [← pow_two, ← pow_mul, ← pow_add, Nat.div_add_mod]
      split
      · rename_i h1
        have hacc : acc * b % m ≡ acc * b [MOD m] := Nat.mod_modEq _ _
        have := hacc.mul hsq
        rw [hpow, h1, pow_one]
        calc _ = acc * b * (b * b) ^ (e / 2) % m := this
          _ = _ := by ring_nf
      · rename_i h1
        have h2 : e % 2 = 0 := by omega
        rw [hpow, h2, pow_zero, mul_one]
        exact (Nat.ModEq.refl acc).mul hsq

/-- The repeated squaring computes `b^e mod m` (00_scope section 6.1, 41_keypoint R80). -/
theorem powMod_eq (b e m : Nat) : powMod b e m = b ^ e % m := by
  rw [powMod, powModLoop_eq _ _ _ _ _ Nat.lt_log2_self, one_mul]
  exact (Nat.mod_modEq b m).pow e

end Sys2Proof.Machine
end

