-- ==== Sys2Proof/Laws/Base58.lean ====
section
/-! SUPPORT. The laws of the alphabet and of digit strings (spec 40_base58check R61 to R63), from which the inverse
laws and the length bounds are put together. -/

namespace Sys2Proof.Machine

/-! ### The alphabet -/

/-- The character of a digit value has that digit value (40_base58check R61). -/
theorem symbolIndex_symbolOf {c : Params} (hc : c.alphabet.length = 58 ∧ c.alphabet.Nodup) {i : Nat} (hi : i < 58) :
    symbolIndex c (symbolOf c i) = some i := by
  have hi' : i < c.alphabet.length := by omega
  have hs : symbolOf c i = c.alphabet[i] := by simp [symbolOf, hi']
  rw [symbolIndex, hs, List.idxOf?, List.findIdx?_eq_some_iff_getElem]
  refine ⟨hi', by simp, fun j hj => ?_⟩
  simp only [beq_iff_eq]
  intro h
  have := (List.Nodup.getElem_inj_iff hc.2).1 h
  omega

/-- A character with a digit value is the character of that value, and the value is below 58. -/
theorem symbolOf_of_symbolIndex {c : Params} (hc : c.alphabet.length = 58 ∧ c.alphabet.Nodup) {ch : Byte} {i : Nat}
    (h : symbolIndex c ch = some i) : i < 58 ∧ symbolOf c i = ch := by
  rw [symbolIndex, List.idxOf?, List.findIdx?_eq_some_iff_getElem] at h
  obtain ⟨hi, heq, -⟩ := h
  refine ⟨by omega, ?_⟩
  simp only [beq_iff_eq] at heq
  simp [symbolOf, hi, heq]

/-- Different digit values have different characters. -/
theorem symbolOf_inj {c : Params} (hc : c.alphabet.length = 58 ∧ c.alphabet.Nodup) {i j : Nat} (hi : i < 58)
    (hj : j < 58) (h : symbolOf c i = symbolOf c j) : i = j := by
  have := symbolIndex_symbolOf hc hi
  rw [h, symbolIndex_symbolOf hc hj] at this
  exact (Option.some.inj this).symm

/-- The digit values of the characters of digits are the digits. -/
theorem charDigits_map {c : Params} (hc : c.alphabet.length = 58 ∧ c.alphabet.Nodup) {ds : List Nat}
    (h : ∀ d ∈ ds, d < 58) : charDigits c (ds.map (symbolOf c)) = some ds := by
  induction ds with
  | nil => rfl
  | cons d ds ih =>
    simp only [List.map_cons, charDigits, symbolIndex_symbolOf hc (h d List.mem_cons_self),
      ih fun x hx => h x (List.mem_cons_of_mem _ hx)]

/-- A string with digit values is the characters of them. -/
theorem eq_map_of_charDigits {c : Params} (hc : c.alphabet.length = 58 ∧ c.alphabet.Nodup) {t : ByteString}
    {ds : List Nat} (h : charDigits c t = some ds) : t = ds.map (symbolOf c) ∧ ∀ d ∈ ds, d < 58 := by
  induction t generalizing ds with
  | nil => cases h; simp
  | cons ch t ih =>
    unfold charDigits at h
    cases hd : symbolIndex c ch with
    | none => simp [hd] at h
    | some d =>
      cases hr : charDigits c t with
      | none => simp [hd, hr] at h
      | some rest =>
        simp only [hd, hr, Option.some.injEq] at h
        subst h
        have h1 := symbolOf_of_symbolIndex hc hd
        have h2 := ih hr
        refine ⟨by rw [List.map_cons, h1.2, ← h2.1], fun x hx => ?_⟩
        rcases List.mem_cons.1 hx with rfl | hx
        · exact h1.1
        · exact h2.2 x hx

/-- A string has digit values exactly if all its characters are in the alphabet. -/
theorem charDigits_eq_none (c : Params) (t : ByteString) :
    charDigits c t = none ↔ ∃ ch ∈ t, symbolIndex c ch = none := by
  induction t with
  | nil => simp [charDigits]
  | cons ch t ih =>
    unfold charDigits
    cases hd : symbolIndex c ch with
    | none => simp [hd]
    | some d =>
      cases hr : charDigits c t with
      | none => rw [hr] at ih; simpa [hd] using ih.1 rfl
      | some rest => rw [hr] at ih; simpa [hd] using ih

/-! ### Leading bytes -/

@[simp] theorem leadingCount_nil (b : Byte) : leadingCount b [] = 0 := rfl

/-- Leading copies of a byte, then a string that does not begin with it. -/
theorem leadingCount_replicate_append (b : Byte) (z : Nat) (u : ByteString) (hu : u.head? ≠ some b) :
    leadingCount b (List.replicate z b ++ u) = z := by
  induction z with
  | zero =>
    cases u with
    | nil => rfl
    | cons x u =>
      have : (x == b) = false := by simpa using hu
      simp [leadingCount, this]
  | succ z ih => simpa [leadingCount, List.replicate_succ] using ih

/-- Every string is its leading copies of a byte and a string that does not begin with it. -/
theorem eq_replicate_append (b : Byte) (s : ByteString) :
    ∃ u, s = List.replicate (leadingCount b s) b ++ u ∧ u.head? ≠ some b := by
  induction s with
  | nil => exact ⟨[], by simp⟩
  | cons x s ih =>
    by_cases hx : x = b
    · subst hx
      obtain ⟨u, h1, h2⟩ := ih
      refine ⟨u, ?_, h2⟩
      have : leadingCount x (x :: s) = leadingCount x s + 1 := by simp [leadingCount]
      rw [this, List.replicate_succ, List.cons_append, ← h1]
    · refine ⟨x :: s, ?_, by simpa using hx⟩
      have : leadingCount b (x :: s) = 0 := by simp [leadingCount, hx]
      rw [this]; rfl

/-! ### Digit strings without leading zero -/

theorem digitsValue_zeros (base z : Nat) (ds : List Nat) :
    digitsValue base (List.replicate z 0 ++ ds) = digitsValue base ds := by
  induction z with
  | zero => rfl
  | succ z ih => simpa [digitsValue, List.replicate_succ] using ih

/-- The digits of the value of a digit string that does not begin with 0 are that string. -/
theorem digitsLE_digitsValue {base : Nat} (hb : 2 ≤ base) {ds : List Nat} (h : ∀ d ∈ ds, d < base)
    (h0 : ds.head? ≠ some 0) : (digitsLE base (digitsValue base ds)).reverse = ds := by
  have hv : digitsValue base ds = Nat.ofDigits base ds.reverse := by
    rw [← digitsValue_reverse_eq, List.reverse_reverse]
  rw [digitsLE_eq base hb, hv, Nat.digits_ofDigits base (by omega), List.reverse_reverse]
  · simpa using h
  · intro hne
    rw [List.getLast_reverse]
    intro h1
    apply h0
    rw [List.head?_eq_some_head (by simpa using hne), h1]

/-- The most significant digit of a number is not 0. -/
theorem head_digitsLE_reverse {base : Nat} (hb : 2 ≤ base) (n : Nat) :
    (digitsLE base n).reverse.head? ≠ some 0 := by
  rw [digitsLE_eq base hb, List.head?_reverse]
  by_cases hn : n = 0
  · simp [hn]
  · have hne : Nat.digits base n ≠ [] := Nat.digits_ne_nil_iff_ne_zero.2 hn
    rw [List.getLast?_eq_some_getLast hne]
    simpa using Nat.getLast_digit_ne_zero base hn

theorem digitsLE_lt {base : Nat} (hb : 2 ≤ base) (n d : Nat) (h : d ∈ digitsLE base n) : d < base := by
  rw [digitsLE_eq base hb] at h
  exact Nat.digits_lt_base (by omega) h

/-- The value of a number's digits is the number. -/
theorem digitsValue_digitsLE {base : Nat} (hb : 2 ≤ base) (n : Nat) :
    digitsValue base (digitsLE base n).reverse = n := by
  rw [digitsValue_reverse_eq, digitsLE_eq base hb, Nat.ofDigits_digits]

/-! ### Byte strings without leading zero -/

theorem map_ofNat_map_toNat (s : ByteString) : (s.map BitVec.toNat).map (BitVec.ofNat 8) = s := by
  simp [List.map_map, Function.comp_def]

/-- `be2nat(nat2be_min(n)) = n` (00_scope section 6.2). -/
theorem be2nat_nat2beMin (n : Nat) : be2nat (nat2beMin n) = n := by
  rw [be2nat_eq_digitsValue, nat2beMin, List.map_map]
  have : (digitsLE 256 n).reverse.map (BitVec.toNat ∘ BitVec.ofNat 8) = (digitsLE 256 n).reverse := by
    conv_rhs => rw [← List.map_id (digitsLE 256 n).reverse]
    apply List.map_congr_left
    intro d hd
    have := digitsLE_lt (by norm_num) n d (List.mem_reverse.1 hd)
    simp; omega
  rw [this, digitsValue_digitsLE (by norm_num)]

/-- `nat2be_min(n)` has no leading zero byte. -/
theorem head_nat2beMin (n : Nat) : (nat2beMin n).head? ≠ some 0 := by
  rw [nat2beMin, List.head?_map]
  intro h
  rw [Option.map_eq_some_iff] at h
  obtain ⟨d, hd, h0⟩ := h
  have hlt := digitsLE_lt (base := 256) (by norm_num) n d
    (List.mem_reverse.1 (List.mem_of_mem_head? (by rw [hd]; rfl)))
  have : d = 0 := by
    have := congrArg BitVec.toNat h0
    simp at this; omega
  subst this
  exact head_digitsLE_reverse (by norm_num) n hd

/-- The shortest byte string of the value of a string that does not begin with a zero byte is that string. -/
theorem nat2beMin_be2nat {s : ByteString} (h0 : s.head? ≠ some 0) : nat2beMin (be2nat s) = s := by
  rw [nat2beMin, be2nat_eq_digitsValue, digitsLE_digitsValue (by norm_num), map_ofNat_map_toNat]
  · intro d hd
    obtain ⟨b, -, rfl⟩ := List.mem_map.1 hd
    exact b.isLt
  · rw [List.head?_map]
    intro h
    rw [Option.map_eq_some_iff] at h
    obtain ⟨b, hb, hz⟩ := h
    apply h0
    rw [hb]
    congr 1
    exact BitVec.eq_of_toNat_eq (by simpa using hz)

theorem be2nat_zeros (z : Nat) (s : ByteString) : be2nat (List.replicate z 0 ++ s) = be2nat s := by
  rw [be2nat_eq_digitsValue, be2nat_eq_digitsValue, List.map_append, List.map_replicate]
  exact digitsValue_zeros 256 z _

/-! ### `b58enc` as a digit string -/

/-- The text of a byte string is the characters of its leading zeros and of its digits (40_base58check R62). -/
theorem b58enc_eq_map (c : Params) (s : ByteString) :
    b58enc c s = (List.replicate (lz s) 0 ++ (digitsLE 58 (be2nat s)).reverse).map (symbolOf c) := by
  simp [b58enc, zeroSymbol, Config.radix]

theorem b58enc_digits_lt (s : ByteString) :
    ∀ d ∈ List.replicate (lz s) 0 ++ (digitsLE 58 (be2nat s)).reverse, d < 58 := by
  intro d hd
  rcases List.mem_append.1 hd with h | h
  · rw [List.eq_of_mem_replicate h]; norm_num
  · exact digitsLE_lt (by norm_num) _ d (List.mem_reverse.1 h)

/-- The zero symbols at the front of the characters of a digit string are its leading zeros. -/
theorem leadingCount_map_symbolOf {c : Params} (hc : c.alphabet.length = 58 ∧ c.alphabet.Nodup) (z : Nat)
    {ds : List Nat} (h : ∀ d ∈ ds, d < 58) (h0 : ds.head? ≠ some 0) :
    leadingCount (zeroSymbol c) ((List.replicate z 0 ++ ds).map (symbolOf c)) = z := by
  rw [List.map_append, List.map_replicate]
  apply leadingCount_replicate_append
  rw [List.head?_map]
  intro hh
  rw [Option.map_eq_some_iff] at hh
  obtain ⟨d, hd, he⟩ := hh
  apply h0
  rw [hd, symbolOf_inj hc (h d (List.mem_of_mem_head? (by rw [hd]; rfl))) (by norm_num) he]

/-- The checksum is 4 bytes (40_base58check R64). -/
@[simp] theorem length_cksum (c : Params) (p : ByteString) : (cksum c p).length = 4 := by
  simp [cksum, Config.checksumLength]

/-- A hash-160 is 20 bytes (42_derivation R95). -/
@[simp] theorem length_hash160 (c : Params) (data : ByteString) : (hash160 c data).length = 20 := by
  simp [hash160]

end Sys2Proof.Machine
end

