-- ==== Sys2Proof/Laws/PerInstr.lean ====
section
/-! SUPPORT. Facts about every command, one lemma a constructor. -/

namespace Sys2Proof.Laws

/-- A command is well formed, its word is legal (spec 30_encoding R49) with the command's own opcode and flag in
their fields (R46), and its mnemonic names it (R53). -/
def EncodesLegally.Statement (i : Instr) : Prop :=
  i.wf ∧ legalWord (encode i) ∧ opField (encode i) = opOf i ∧ flagField (encode i) = flagOf i
    ∧ assemble i.name = some i

theorem EncodesLegally.b58enc : EncodesLegally.Statement .b58enc := by unfold Statement; decide
theorem EncodesLegally.b58dec : EncodesLegally.Statement .b58dec := by unfold Statement; decide
theorem EncodesLegally.b58cenc : EncodesLegally.Statement .b58cenc := by unfold Statement; decide
theorem EncodesLegally.b58cdec : EncodesLegally.Statement .b58cdec := by unfold Statement; decide
theorem EncodesLegally.pt2pk (c : Bool) : EncodesLegally.Statement (.pt2pk c) := by
  unfold Statement; revert c; decide
theorem EncodesLegally.recy (c : Bool) : EncodesLegally.Statement (.recy c) := by
  unfold Statement; revert c; decide
theorem EncodesLegally.pk2pt : EncodesLegally.Statement .pk2pt := by unfold Statement; decide
theorem EncodesLegally.hash160 : EncodesLegally.Statement .hash160 := by unfold Statement; decide
theorem EncodesLegally.addr : EncodesLegally.Statement .addr := by unfold Statement; decide
theorem EncodesLegally.wifenc (c : Bool) : EncodesLegally.Statement (.wifenc c) := by
  unfold Statement; revert c; decide
theorem EncodesLegally.wifdec : EncodesLegally.Statement .wifdec := by unfold Statement; decide
theorem EncodesLegally.sec2pk (c : Bool) : EncodesLegally.Statement (.sec2pk c) := by
  unfold Statement; revert c; decide

end Sys2Proof.Laws
end

