-- ==== Sys2Proof/Laws/Coding.lean ====
section
/-! SUPPORT. Well-formed commands and the fields of a command word. -/

namespace Sys2Proof

/-- No term of `Instr` is ill formed (spec 30_encoding R48). -/
theorem Instr.wf_all (i : Instr) : i.wf := by
  cases i with
  | b58enc => exact Laws.EncodesLegally.b58enc.1
  | b58dec => exact Laws.EncodesLegally.b58dec.1
  | b58cenc => exact Laws.EncodesLegally.b58cenc.1
  | b58cdec => exact Laws.EncodesLegally.b58cdec.1
  | pt2pk c => exact (Laws.EncodesLegally.pt2pk c).1
  | recy c => exact (Laws.EncodesLegally.recy c).1
  | pk2pt => exact Laws.EncodesLegally.pk2pt.1
  | hash160 => exact Laws.EncodesLegally.hash160.1
  | addr => exact Laws.EncodesLegally.addr.1
  | wifenc c => exact (Laws.EncodesLegally.wifenc c).1
  | wifdec => exact Laws.EncodesLegally.wifdec.1
  | sec2pk c => exact (Laws.EncodesLegally.sec2pk c).1

/-- A command word is made of its three fields: `w = RSV·2^9 + C·2^8 + OP` (30_encoding R46). -/
theorem word_of_fields (w : Word16) :
    w.toNat = rsvField w * 2 ^ 9 + (flagField w).toNat * 2 ^ 8 + opField w := by
  have h : (flagField w).toNat = w.toNat / 2 ^ 8 % 2 := by
    rw [flagField, BitVec.getLsbD, Nat.testBit_eq_decide_div_mod_eq]
    rcases Nat.mod_two_eq_zero_or_one (w.toNat / 2 ^ 8) with h | h <;> rw [h] <;> rfl
  rw [h, rsvField, opField]
  omega

/-- A legal word in terms of the decoder's fields (30_encoding R46, R49). -/
theorem legalWord_iff (w : Word16) :
    legalWord w ↔ rsvField w = 0 ∧ opField w ∈ opcodes ∧ (flagField w = true → opField w ∈ flagOpcodes) :=
  Iff.rfl

end Sys2Proof
end

