-- ==== Sys2Proof/Laws/Memory.lean ====
section
/-! SUPPORT. The laws of the buffers: a read after a write, and that every operation keeps the canonical form
and stays inside the capacity (spec 20_memory R30 to R34). -/

namespace Sys2Proof.Machine

@[simp] theorem Memory.read_nil (a : Nat) : Memory.read [] a = unlistedByte := rfl

theorem Memory.read_cons (k : Nat) (b : Byte) (m : List Host.Cell) (a : Nat) :
    Memory.read ((k, b) :: m) a = if a = k then b else Memory.read m a := rfl

/-- The canonical form in the terms proofs use. -/
theorem Memory.wf_iff (m : Memory) :
    m.wf = true ↔ (m.Pairwise fun x y => x.1 < y.1) ∧ ∀ x ∈ m, x.2 ≠ unlistedByte := by
  simp [Memory.wf]

@[simp] theorem Memory.wf_nil : Memory.wf [] = true := rfl

theorem Memory.wf_tail {x : Host.Cell} {m : List Host.Cell} (h : Memory.wf (x :: m) = true) :
    Memory.wf m = true := by
  rw [Memory.wf_iff] at *
  exact ⟨(List.pairwise_cons.1 h.1).2, fun y hy => h.2 y (List.mem_cons_of_mem _ hy)⟩

/-- An address below every listed one reads as unlisted. -/
theorem Memory.read_below (m : Memory) (a : Nat) (h : ∀ x ∈ m, a < x.1) : m.read a = unlistedByte := by
  induction m with
  | nil => rfl
  | cons x m ih =>
    obtain ⟨k, b⟩ := x
    have hk : a < k := h (k, b) List.mem_cons_self
    rw [Memory.read_cons, if_neg (by omega)]
    exact ih fun y hy => h y (List.mem_cons_of_mem _ hy)

theorem Memory.read_consByte (a : Nat) (b : Byte) (m : Memory) (hm : ∀ x ∈ m, a < x.1) (i : Nat) :
    (Memory.cons a b m).read i = if i = a then b else m.read i := by
  unfold Memory.cons
  split
  · rename_i hb
    by_cases hi : i = a
    · subst hi; rw [Memory.read_below m i hm, if_pos rfl, hb]
    · rw [if_neg hi]
  · exact Memory.read_cons a b m i

/-- A read after a write: the byte written at its address, everything else as before. -/
theorem Memory.read_write (m : Memory) (hm : m.wf = true) (a : Nat) (b : Byte) (i : Nat) :
    (m.write a b).read i = if i = a then b else m.read i := by
  induction m with
  | nil => exact Memory.read_consByte a b [] (by simp) i
  | cons x m ih =>
    obtain ⟨k, c⟩ := x
    have hs := ((Memory.wf_iff _).1 hm).1
    rw [List.pairwise_cons] at hs
    unfold Memory.write
    split
    · rename_i hak
      refine Memory.read_consByte a b _ (fun y hy => ?_) i
      rcases List.mem_cons.1 hy with rfl | hy
      · exact hak
      · exact lt_trans hak (hs.1 y hy)
    · split
      · rename_i hak
        subst hak
        rw [Memory.read_consByte a b m (fun y hy => hs.1 y hy) i, Memory.read_cons]
        by_cases hi : i = a <;> simp [hi]
      · rename_i hak
        rw [Memory.read_cons, Memory.read_cons, ih (Memory.wf_tail hm)]
        by_cases hi : i = k
        · subst hi; rw [if_pos rfl, if_neg (fun h => hak h.symm), if_pos rfl]
        · rw [if_neg hi, if_neg hi]

theorem Memory.mem_cons_of {a : Nat} {b : Byte} {m : Memory} {x : Host.Cell}
    (h : x ∈ Memory.cons a b m) : x = (a, b) ∨ x ∈ m := by
  unfold Memory.cons at h
  split at h
  · exact Or.inr h
  · exact List.mem_cons.1 h

theorem Memory.mem_write {m : Memory} {a : Nat} {b : Byte} {x : Host.Cell}
    (h : x ∈ m.write a b) : x = (a, b) ∨ x ∈ m := by
  induction m with
  | nil => exact Memory.mem_cons_of h
  | cons y m ih =>
    obtain ⟨k, c⟩ := y
    unfold Memory.write at h
    split at h
    · exact Memory.mem_cons_of h
    · split at h
      · exact (Memory.mem_cons_of h).imp_right (List.mem_cons_of_mem _)
      · rcases List.mem_cons.1 h with rfl | h
        · exact Or.inr List.mem_cons_self
        · exact (ih h).imp_right (List.mem_cons_of_mem _)

theorem Memory.wf_consByte {a : Nat} {b : Byte} {m : Memory} (hm : m.wf = true)
    (ha : ∀ x ∈ m, a < x.1) : (Memory.cons a b m).wf = true := by
  unfold Memory.cons
  split
  · exact hm
  · rename_i hb
    rw [Memory.wf_iff] at *
    refine ⟨List.pairwise_cons.2 ⟨fun y hy => ha y hy, hm.1⟩, fun y hy => ?_⟩
    rcases List.mem_cons.1 hy with rfl | hy
    · exact hb
    · exact hm.2 y hy

/-- Writing a byte keeps the canonical form. -/
theorem Memory.wf_write {m : Memory} (hm : m.wf = true) (a : Nat) (b : Byte) :
    (m.write a b).wf = true := by
  induction m with
  | nil => exact Memory.wf_consByte rfl (by simp)
  | cons x m ih =>
    obtain ⟨k, c⟩ := x
    have h := (Memory.wf_iff _).1 hm
    have hs := List.pairwise_cons.1 h.1
    unfold Memory.write
    split
    · rename_i hak
      refine Memory.wf_consByte hm fun y hy => ?_
      rcases List.mem_cons.1 hy with rfl | hy
      · exact hak
      · exact lt_trans hak (hs.1 y hy)
    · split
      · rename_i hak
        subst hak
        exact Memory.wf_consByte (Memory.wf_tail hm) fun y hy => hs.1 y hy
      · rename_i h1 h2
        have ih' := (Memory.wf_iff _).1 (ih (Memory.wf_tail hm))
        rw [Memory.wf_iff]
        refine ⟨List.pairwise_cons.2 ⟨fun y hy => ?_, ih'.1⟩, fun y hy => ?_⟩
        · rcases Memory.mem_write hy with rfl | hy
          · show k < a; omega
          · exact hs.1 y hy
        · rcases List.mem_cons.1 hy with rfl | hy
          · exact h.2 _ List.mem_cons_self
          · exact ih'.2 y hy

theorem Memory.within_iff (m : Memory) (cap : Nat) : m.within cap = true ↔ ∀ x ∈ m, x.1 < cap := by
  simp [Memory.within]

/-- Writing inside the capacity stays inside it. -/
theorem Memory.within_write {m : Memory} {cap a : Nat} (hm : m.within cap = true) (ha : a < cap) (b : Byte) :
    (m.write a b).within cap = true := by
  rw [Memory.within_iff] at *
  intro x hx
  rcases Memory.mem_write hx with rfl | hx
  · exact ha
  · exact hm x hx

/-- Equal contents are equal data: two canonical buffers that read alike are the same list. -/
theorem Memory.ext_read {m n : Memory} (hm : m.wf = true) (hn : n.wf = true)
    (h : ∀ a, m.read a = n.read a) : m = n := by
  induction m generalizing n with
  | nil =>
    cases n with
    | nil => rfl
    | cons y n =>
      obtain ⟨k, b⟩ := y
      have := h k
      rw [Memory.read_nil, Memory.read_cons, if_pos rfl] at this
      exact absurd this.symm (((Memory.wf_iff _).1 hn).2 (k, b) List.mem_cons_self)
  | cons x m ih =>
    obtain ⟨j, a⟩ := x
    have hm' := (Memory.wf_iff _).1 hm
    have hms := List.pairwise_cons.1 hm'.1
    cases n with
    | nil =>
      have := h j
      rw [Memory.read_nil, Memory.read_cons, if_pos rfl] at this
      exact absurd this (hm'.2 (j, a) List.mem_cons_self)
    | cons y n =>
      obtain ⟨k, b⟩ := y
      have hn' := (Memory.wf_iff _).1 hn
      have hns := List.pairwise_cons.1 hn'.1
      have hjk : j = k := by
        rcases lt_trichotomy j k with hlt | heq | hgt
        · have := h j
          rw [Memory.read_cons, if_pos rfl, Memory.read_below _ j] at this
          · exact absurd this (hm'.2 (j, a) List.mem_cons_self)
          · intro z hz
            rcases List.mem_cons.1 hz with rfl | hz
            · exact hlt
            · exact lt_trans hlt (hns.1 z hz)
        · exact heq
        · have := h k
          rw [Memory.read_below _ k, Memory.read_cons, if_pos rfl] at this
          · exact absurd this.symm (hn'.2 (k, b) List.mem_cons_self)
          · intro z hz
            rcases List.mem_cons.1 hz with rfl | hz
            · exact hgt
            · exact lt_trans hgt (hms.1 z hz)
      subst hjk
      have hab : a = b := by simpa [Memory.read_cons] using h j
      subst hab
      have : m = n := by
        refine ih (Memory.wf_tail hm) (Memory.wf_tail hn) fun i => ?_
        by_cases hi : i = j
        · subst hi
          rw [Memory.read_below m i fun z hz => hms.1 z hz, Memory.read_below n i fun z hz => hns.1 z hz]
        · simpa [Memory.read_cons, hi] using h i
      rw [this]

/-! ### `MemRead` and `MemWrite` -/

@[simp] theorem length_memRead (m : Memory) (a n : Nat) : (memRead m a n).length = n := by
  simp [memRead]

@[simp] theorem memRead_zero (m : Memory) (a : Nat) : memRead m a 0 = [] := rfl

theorem getElem_memRead (m : Memory) (a n i : Nat) (h : i < (memRead m a n).length) :
    (memRead m a n)[i] = m.read (a + i) := by
  simp [memRead]

@[simp] theorem memWrite_nil (m : Memory) (a : Nat) : memWrite m a [] = m := rfl

@[simp] theorem wf_memWrite {m : Memory} (hm : m.wf = true) (a : Nat) (s : ByteString) :
    (memWrite m a s).wf = true := by
  induction s generalizing m a with
  | nil => exact hm
  | cons b s ih => exact ih (Memory.wf_write hm a b) (a + 1)

/-- `MemWrite` inside the capacity stays inside it. -/
theorem within_memWrite {m : Memory} {cap : Nat} (hm : m.within cap = true) (a : Nat) (s : ByteString)
    (h : a + s.length ≤ cap) : (memWrite m a s).within cap = true := by
  induction s generalizing m a with
  | nil => exact hm
  | cons b s ih =>
    rw [List.length_cons] at h
    exact ih (Memory.within_write hm (by omega) b) (a + 1) (by omega)

/-- What `MemWrite` does, whole: byte `i` of the string at address `a + i`, every other address as before. -/
theorem read_memWrite {m : Memory} (hm : m.wf = true) (a : Nat) (s : ByteString) (i : Nat) :
    (memWrite m a s).read i = if a ≤ i then s.getD (i - a) (m.read i) else m.read i := by
  induction s generalizing m a with
  | nil => simp
  | cons b s ih =>
    rw [memWrite, ih (Memory.wf_write hm a b) (a + 1), Memory.read_write m hm]
    rcases lt_trichotomy i a with h | h | h
    · simp [show ¬ a ≤ i by omega, show ¬ a + 1 ≤ i by omega, show i ≠ a by omega]
    · subst h; simp
    · obtain ⟨d, rfl⟩ := Nat.exists_eq_add_of_lt h
      have h1 : a + d + 1 - a = d + 1 := by omega
      have h2 : a + d + 1 - (a + 1) = d := by omega
      simp [h1, h2, show a ≤ a + d + 1 by omega, show a + d + 1 ≠ a by omega]

/-- Reading back what `MemWrite` wrote. -/
theorem memRead_memWrite {m : Memory} (hm : m.wf = true) (a : Nat) (s : ByteString) :
    memRead (memWrite m a s) a s.length = s := by
  apply List.ext_getElem
  · simp
  · intro i h1 h2
    rw [getElem_memRead, read_memWrite hm]
    simp [h2]

end Sys2Proof.Machine
end

