-- ==== Sys2Proof/Laws/State.lean ====
section
/-! SUPPORT. What every update of the state does to every field of it: one lemma a field and update. -/

namespace Sys2Proof.Machine

/-! ### `writeOut` (20_memory R34) -/

@[simp] theorem writeOut_ibuf (s : State) (out : ByteString) :
    (writeOut s out).ibuf = s.ibuf := rfl
@[simp] theorem writeOut_ilen (s : State) (out : ByteString) :
    (writeOut s out).ilen = s.ilen := rfl
@[simp] theorem writeOut_obuf (s : State) (out : ByteString) :
    (writeOut s out).obuf = memWrite [] 0 out := rfl
@[simp] theorem writeOut_olen (s : State) (out : ByteString) :
    (writeOut s out).olen = BitVec.ofNat 16 out.length := rfl
@[simp] theorem writeOut_px (s : State) (out : ByteString) :
    (writeOut s out).px = s.px := rfl
@[simp] theorem writeOut_py (s : State) (out : ByteString) :
    (writeOut s out).py = s.py := rfl
@[simp] theorem writeOut_status (s : State) (out : ByteString) :
    (writeOut s out).status = s.status := rfl
@[simp] theorem writeOut_cmdl (s : State) (out : ByteString) :
    (writeOut s out).cmdl = s.cmdl := rfl
@[simp] theorem writeOut_obufRest (s : State) (out : ByteString) :
    (writeOut s out).obufRest = some s.draws := rfl
@[simp] theorem writeOut_draws (s : State) (out : ByteString) :
    (writeOut s out).draws = s.draws + 1 := rfl
@[simp] theorem writeOut_hostData (s : State) (out : ByteString) :
    (writeOut s out).hostData = s.hostData := rfl
@[simp] theorem writeOut_inputs (s : State) (out : ByteString) :
    (writeOut s out).inputs = s.inputs := rfl

/-! ### `succeed` (30_encoding R58) -/

@[simp] theorem succeed_ibuf (r : Result) (s : State) :
    (succeed r s).ibuf = s.ibuf := rfl
@[simp] theorem succeed_ilen (r : Result) (s : State) :
    (succeed r s).ilen = s.ilen := rfl
@[simp] theorem succeed_obuf (r : Result) (s : State) :
    (succeed r s).obuf = memWrite [] 0 r.out := rfl
@[simp] theorem succeed_olen (r : Result) (s : State) :
    (succeed r s).olen = BitVec.ofNat 16 r.out.length := rfl
@[simp] theorem succeed_px (r : Result) (s : State) :
    (succeed r s).px = r.px.getD s.px := rfl
@[simp] theorem succeed_py (r : Result) (s : State) :
    (succeed r s).py = r.py.getD s.py := rfl
@[simp] theorem succeed_status (r : Result) (s : State) :
    (succeed r s).status = statusCompleted := rfl
@[simp] theorem succeed_cmdl (r : Result) (s : State) :
    (succeed r s).cmdl = s.cmdl := rfl
@[simp] theorem succeed_obufRest (r : Result) (s : State) :
    (succeed r s).obufRest = some s.draws := rfl
@[simp] theorem succeed_draws (r : Result) (s : State) :
    (succeed r s).draws = s.draws + 1 := rfl
@[simp] theorem succeed_hostData (r : Result) (s : State) :
    (succeed r s).hostData = s.hostData := rfl
@[simp] theorem succeed_inputs (r : Result) (s : State) :
    (succeed r s).inputs = s.inputs := rfl

/-! ### `raise` (60_exceptions R116) -/

@[simp] theorem raise_ibuf (e : CmdError) (s : State) :
    (raise e s).ibuf = s.ibuf := rfl
@[simp] theorem raise_ilen (e : CmdError) (s : State) :
    (raise e s).ilen = s.ilen := rfl
@[simp] theorem raise_obuf (e : CmdError) (s : State) :
    (raise e s).obuf = [] := rfl
@[simp] theorem raise_olen (e : CmdError) (s : State) :
    (raise e s).olen = 0 := rfl
@[simp] theorem raise_px (e : CmdError) (s : State) :
    (raise e s).px = s.px := rfl
@[simp] theorem raise_py (e : CmdError) (s : State) :
    (raise e s).py = s.py := rfl
@[simp] theorem raise_status (e : CmdError) (s : State) :
    (raise e s).status = statusFailed e := rfl
@[simp] theorem raise_cmdl (e : CmdError) (s : State) :
    (raise e s).cmdl = s.cmdl := rfl
@[simp] theorem raise_obufRest (e : CmdError) (s : State) :
    (raise e s).obufRest = some s.draws := rfl
@[simp] theorem raise_draws (e : CmdError) (s : State) :
    (raise e s).draws = s.draws + 1 := rfl
@[simp] theorem raise_hostData (e : CmdError) (s : State) :
    (raise e s).hostData = s.hostData := rfl
@[simp] theorem raise_inputs (e : CmdError) (s : State) :
    (raise e s).inputs = s.inputs := rfl

/-! ### `issue` (30_encoding R56) -/

@[simp] theorem issue_ibuf (w : Word16) (s : State) :
    (issue w s).ibuf = s.ibuf := rfl
@[simp] theorem issue_ilen (w : Word16) (s : State) :
    (issue w s).ilen = s.ilen := rfl
@[simp] theorem issue_obuf (w : Word16) (s : State) :
    (issue w s).obuf = s.obuf := rfl
@[simp] theorem issue_olen (w : Word16) (s : State) :
    (issue w s).olen = s.olen := rfl
@[simp] theorem issue_px (w : Word16) (s : State) :
    (issue w s).px = s.px := rfl
@[simp] theorem issue_py (w : Word16) (s : State) :
    (issue w s).py = s.py := rfl
@[simp] theorem issue_status (w : Word16) (s : State) :
    (issue w s).status = statusIssued := rfl
@[simp] theorem issue_cmdl (w : Word16) (s : State) :
    (issue w s).cmdl = w := rfl
@[simp] theorem issue_obufRest (w : Word16) (s : State) :
    (issue w s).obufRest = s.obufRest := rfl
@[simp] theorem issue_draws (w : Word16) (s : State) :
    (issue w s).draws = s.draws := rfl
@[simp] theorem issue_hostData (w : Word16) (s : State) :
    (issue w s).hostData = s.hostData := rfl
@[simp] theorem issue_inputs (w : Word16) (s : State) :
    (issue w s).inputs = s.inputs := rfl

/-! ### `answer` (20_memory R43) -/

@[simp] theorem answer_ibuf (v : Word256) (s : State) :
    (answer v s).ibuf = s.ibuf := rfl
@[simp] theorem answer_ilen (v : Word256) (s : State) :
    (answer v s).ilen = s.ilen := rfl
@[simp] theorem answer_obuf (v : Word256) (s : State) :
    (answer v s).obuf = s.obuf := rfl
@[simp] theorem answer_olen (v : Word256) (s : State) :
    (answer v s).olen = s.olen := rfl
@[simp] theorem answer_px (v : Word256) (s : State) :
    (answer v s).px = s.px := rfl
@[simp] theorem answer_py (v : Word256) (s : State) :
    (answer v s).py = s.py := rfl
@[simp] theorem answer_status (v : Word256) (s : State) :
    (answer v s).status = s.status := rfl
@[simp] theorem answer_cmdl (v : Word256) (s : State) :
    (answer v s).cmdl = s.cmdl := rfl
@[simp] theorem answer_obufRest (v : Word256) (s : State) :
    (answer v s).obufRest = s.obufRest := rfl
@[simp] theorem answer_draws (v : Word256) (s : State) :
    (answer v s).draws = s.draws := rfl
@[simp] theorem answer_hostData (v : Word256) (s : State) :
    (answer v s).hostData = v := rfl
@[simp] theorem answer_inputs (v : Word256) (s : State) :
    (answer v s).inputs = s.inputs := rfl

/-! ### `resetEvent` (70_reset R130) -/

@[simp] theorem resetEvent_ibuf (s : State) :
    (resetEvent s).ibuf = [] := rfl
@[simp] theorem resetEvent_ilen (s : State) :
    (resetEvent s).ilen = 0 := rfl
@[simp] theorem resetEvent_obuf (s : State) :
    (resetEvent s).obuf = [] := rfl
@[simp] theorem resetEvent_olen (s : State) :
    (resetEvent s).olen = 0 := rfl
@[simp] theorem resetEvent_px (s : State) :
    (resetEvent s).px = 0 := rfl
@[simp] theorem resetEvent_py (s : State) :
    (resetEvent s).py = 0 := rfl
@[simp] theorem resetEvent_status (s : State) :
    (resetEvent s).status = 0 := rfl
@[simp] theorem resetEvent_cmdl (s : State) :
    (resetEvent s).cmdl = 0 := rfl
@[simp] theorem resetEvent_obufRest (s : State) :
    (resetEvent s).obufRest = none := rfl
@[simp] theorem resetEvent_draws (s : State) :
    (resetEvent s).draws = s.draws := rfl
@[simp] theorem resetEvent_hostData (s : State) :
    (resetEvent s).hostData = s.hostData := rfl
@[simp] theorem resetEvent_inputs (s : State) :
    (resetEvent s).inputs = s.inputs := rfl

/-! ### `State.withFetchWord` -/

@[simp] theorem withFetchWord_ibuf (s : State) (nbits w : Nat) :
    (s.withFetchWord nbits w).ibuf = s.ibuf := rfl
@[simp] theorem withFetchWord_ilen (s : State) (nbits w : Nat) :
    (s.withFetchWord nbits w).ilen = s.ilen := rfl
@[simp] theorem withFetchWord_obuf (s : State) (nbits w : Nat) :
    (s.withFetchWord nbits w).obuf = s.obuf := rfl
@[simp] theorem withFetchWord_olen (s : State) (nbits w : Nat) :
    (s.withFetchWord nbits w).olen = s.olen := rfl
@[simp] theorem withFetchWord_px (s : State) (nbits w : Nat) :
    (s.withFetchWord nbits w).px = s.px := rfl
@[simp] theorem withFetchWord_py (s : State) (nbits w : Nat) :
    (s.withFetchWord nbits w).py = s.py := rfl
@[simp] theorem withFetchWord_status (s : State) (nbits w : Nat) :
    (s.withFetchWord nbits w).status = statusIssued := rfl
@[simp] theorem withFetchWord_cmdl (s : State) (nbits w : Nat) :
    (s.withFetchWord nbits w).cmdl = BitVec.ofNat 16 (w % 2 ^ nbits) := rfl
@[simp] theorem withFetchWord_obufRest (s : State) (nbits w : Nat) :
    (s.withFetchWord nbits w).obufRest = s.obufRest := rfl
@[simp] theorem withFetchWord_draws (s : State) (nbits w : Nat) :
    (s.withFetchWord nbits w).draws = s.draws := rfl
@[simp] theorem withFetchWord_hostData (s : State) (nbits w : Nat) :
    (s.withFetchWord nbits w).hostData = s.hostData := rfl
@[simp] theorem withFetchWord_inputs (s : State) (nbits w : Nat) :
    (s.withFetchWord nbits w).inputs = holdInputs s.inputs := rfl

/-! ### The inputs replaced -/

@[simp] theorem withInputs_ibuf (s : State) (l : List Input) :
    ({ s with inputs := l } : State).ibuf = s.ibuf := rfl
@[simp] theorem withInputs_ilen (s : State) (l : List Input) :
    ({ s with inputs := l } : State).ilen = s.ilen := rfl
@[simp] theorem withInputs_obuf (s : State) (l : List Input) :
    ({ s with inputs := l } : State).obuf = s.obuf := rfl
@[simp] theorem withInputs_olen (s : State) (l : List Input) :
    ({ s with inputs := l } : State).olen = s.olen := rfl
@[simp] theorem withInputs_px (s : State) (l : List Input) :
    ({ s with inputs := l } : State).px = s.px := rfl
@[simp] theorem withInputs_py (s : State) (l : List Input) :
    ({ s with inputs := l } : State).py = s.py := rfl
@[simp] theorem withInputs_status (s : State) (l : List Input) :
    ({ s with inputs := l } : State).status = s.status := rfl
@[simp] theorem withInputs_cmdl (s : State) (l : List Input) :
    ({ s with inputs := l } : State).cmdl = s.cmdl := rfl
@[simp] theorem withInputs_obufRest (s : State) (l : List Input) :
    ({ s with inputs := l } : State).obufRest = s.obufRest := rfl
@[simp] theorem withInputs_draws (s : State) (l : List Input) :
    ({ s with inputs := l } : State).draws = s.draws := rfl
@[simp] theorem withInputs_hostData (s : State) (l : List Input) :
    ({ s with inputs := l } : State).hostData = s.hostData := rfl
@[simp] theorem withInputs_inputs (s : State) (l : List Input) :
    ({ s with inputs := l } : State).inputs = l := rfl

/-! ### Results and operands -/

@[simp] theorem bytesResult_out (out : ByteString) : (bytesResult out).out = out := rfl
@[simp] theorem bytesResult_px (out : ByteString) : (bytesResult out).px = none := rfl
@[simp] theorem bytesResult_py (out : ByteString) : (bytesResult out).py = none := rfl
@[simp] theorem yResult_out (y : Nat) : (yResult y).out = [] := rfl
@[simp] theorem yResult_px (y : Nat) : (yResult y).px = none := rfl
@[simp] theorem yResult_py (y : Nat) : (yResult y).py = some (BitVec.ofNat 256 y) := rfl
@[simp] theorem pointResult_out (xy : Nat × Nat) (out : ByteString) : (pointResult xy out).out = out := rfl
@[simp] theorem pointResult_px (xy : Nat × Nat) (out : ByteString) :
    (pointResult xy out).px = some (BitVec.ofNat 256 xy.1) := rfl
@[simp] theorem pointResult_py (xy : Nat × Nat) (out : ByteString) :
    (pointResult xy out).py = some (BitVec.ofNat 256 xy.2) := rfl

/-! ### The fields of `STATUS` after issue and completion (10_state R18) -/

@[simp] theorem statusBusy_issued : statusBusy statusIssued = true := rfl
@[simp] theorem statusDone_issued : statusDone statusIssued = false := rfl
@[simp] theorem statusErr_issued : statusErr statusIssued = 0 := rfl
@[simp] theorem statusBusy_completed : statusBusy statusCompleted = false := rfl
@[simp] theorem statusDone_completed : statusDone statusCompleted = true := rfl
@[simp] theorem statusErr_completed : statusErr statusCompleted = 0 := rfl
@[simp] theorem statusBusy_failed (e : CmdError) : statusBusy (statusFailed e) = false := by cases e <;> rfl
@[simp] theorem statusDone_failed (e : CmdError) : statusDone (statusFailed e) = true := by cases e <;> rfl
@[simp] theorem statusErr_failed (e : CmdError) : statusErr (statusFailed e) = e.code := by cases e <;> rfl

@[simp] theorem busy_succeed (r : Result) (s : State) : (succeed r s).busy = false := statusBusy_completed
@[simp] theorem busy_raise (e : CmdError) (s : State) : (raise e s).busy = false := statusBusy_failed e
@[simp] theorem busy_issue (w : Word16) (s : State) : (issue w s).busy = true := statusBusy_issued
@[simp] theorem busy_answer (v : Word256) (s : State) : (answer v s).busy = s.busy := rfl
@[simp] theorem busy_resetEvent (s : State) : (resetEvent s).busy = false := by
  simp [State.busy, statusBusy]
@[simp] theorem busy_withFetchWord (s : State) (nbits w : Nat) : (s.withFetchWord nbits w).busy = true :=
  statusBusy_issued

end Sys2Proof.Machine
end

