-- ==== Sys2Proof/Laws/Ops.lean ====
section
/-! SUPPORT. What the shared operations do, each said once: how a command completes (spec 30_encoding R57, R58,
60_exceptions R116) and what the host's accesses do (20_memory R43). -/

namespace Sys2Proof.Machine

/-! ### The result in `OBUF` -/

theorem obufByte_some {s : State} {n : Nat} (h : s.obufRest = some n) {i : Nat} (hi : i < s.olen.toNat) :
    obufByte s i = s.obuf.read i := by
  simp [obufByte, h, hi]

@[simp] theorem length_outputBytes (s : State) : (outputBytes s).length = s.olen.toNat := by
  simp [outputBytes]

/-- `OUT <- s` leaves the length and the bytes it was given (20_memory R34), if they fit. -/
theorem toNat_olen_writeOut {s : State} {out : ByteString} (h : out.length < 2 ^ 16) :
    (writeOut s out).olen.toNat = out.length := by
  simpa using h

theorem obufByte_succeed {r : Result} {s : State} (h : r.out.length < 2 ^ 16) {i : Nat}
    (hi : i < r.out.length) : obufByte (succeed r s) i = r.out.getD i 0 := by
  have hl : (succeed r s).olen.toNat = r.out.length := by simpa using h
  rw [obufByte_some (n := s.draws) rfl (by rw [hl]; exact hi), succeed_obuf, read_memWrite rfl]
  simp [hi]

theorem outputBytes_succeed {r : Result} {s : State} (h : r.out.length < 2 ^ 16) :
    outputBytes (succeed r s) = r.out := by
  have hl : (succeed r s).olen.toNat = r.out.length := by simpa using h
  apply List.ext_getElem
  · simpa using h
  · intro i h1 h2
    simp only [outputBytes, List.getElem_map, List.getElem_range]
    rw [obufByte_succeed h h2]
    simp [h2]

/-! ### Completion -/

/-- Everything a successful completion does (30_encoding R58). -/
theorem completesWith_succeed (r : Result) (s : State) (h : r.out.length < 2 ^ 16) :
    CompletesWith s (succeed r s) r.out (r.px.getD s.px) (r.py.getD s.py) where
  status := by rw [succeed_status]; rfl
  notBusy := by rw [succeed_status]; rfl
  done := by rw [succeed_status]; rfl
  noError := by rw [succeed_status]; rfl
  olen := by simpa using h
  output := outputBytes_succeed h
  byte := fun _ hi => obufByte_succeed h hi
  px := rfl
  py := rfl
  keeps := ⟨rfl, fun _ => rfl, rfl, rfl, rfl, rfl⟩

/-- Everything an error completion does (60_exceptions R116). -/
theorem failsWith_raise (e : CmdError) (s : State) : FailsWith s (raise e s) e where
  status := by rw [raise_status]; cases e <;> rfl
  notBusy := statusBusy_failed e
  done := statusDone_failed e
  err := statusErr_failed e
  olen := rfl
  px := rfl
  py := rfl
  keeps := ⟨rfl, fun _ => rfl, rfl, rfl, rfl, rfl⟩

/-- How `runCommand` ends, said once (30_encoding R57). -/
theorem runCommand_cases (body : State → Except CmdError Result) (s : State) :
    (Config.params.ibufCap < s.ilen.toNat ∧ runCommand body s = raise .capacityError s) ∨
    (s.fits ∧ ∃ e, body s = .error e ∧ runCommand body s = raise e s) ∨
    (s.fits ∧ ∃ r, body s = .ok r ∧ runCommand body s = succeed r s) := by
  unfold runCommand
  split
  · exact Or.inl ⟨‹_›, rfl⟩
  · rename_i h
    have hf : s.fits := Nat.le_of_not_lt h
    cases hb : body s with
    | error e => exact Or.inr (Or.inl ⟨hf, e, rfl, rfl⟩)
    | ok r => exact Or.inr (Or.inr ⟨hf, r, rfl, rfl⟩)

theorem runCommand_capacity {body : State → Except CmdError Result} {s : State}
    (h : Config.params.ibufCap < s.ilen.toNat) : runCommand body s = raise .capacityError s := if_pos h

theorem runCommand_ok {body : State → Except CmdError Result} {s : State} {r : Result}
    (hf : s.fits) (hb : body s = .ok r) : runCommand body s = succeed r s := by
  rw [runCommand, if_neg (Nat.not_lt.2 hf), hb]; rfl

theorem runCommand_error {body : State → Except CmdError Result} {s : State} {e : CmdError}
    (hf : s.fits) (hb : body s = .error e) : runCommand body s = raise e s := by
  rw [runCommand, if_neg (Nat.not_lt.2 hf), hb]; rfl

/-- The pseudocode of each command (30_encoding R57 step 3), for the proofs about all commands. -/
def bodyOf (i : Instr) (s : State) : Except CmdError Result :=
  match i with
  | .b58enc => .ok (bytesResult (b58enc Config.params (inputBytes s)))
  | .b58dec => (b58dec Config.params (inputBytes s)).map bytesResult
  | .b58cenc => .ok (bytesResult (b58cenc Config.params (inputBytes s)))
  | .b58cdec => (b58cdec Config.params (inputBytes s)).map bytesResult
  | .pt2pk c => .ok (bytesResult (pt2pk (pointOperand s).1 (pointOperand s).2 c))
  | .recy c => .ok (yResult (recy Config.params.curve (pointOperand s).1 c))
  | .pk2pt => (pk2pt Config.params.curve (inputBytes s)).map fun xy => pointResult xy []
  | .hash160 => .ok (bytesResult (hash160 Config.params (inputBytes s)))
  | .addr => .ok (bytesResult (addressOf Config.params (inputBytes s)))
  | .wifenc c => (wifOf Config.params (inputBytes s) c).map bytesResult
  | .wifdec => (secretOfWif Config.params (inputBytes s)).map bytesResult
  | .sec2pk c => (pointOfSecret Config.params (inputBytes s)).map fun xy => pointResult xy (pt2pk xy.1 xy.2 c)

/-- Every command answers a next state: it runs its pseudocode and completes. -/
theorem exec_eq (i : Instr) (s : State) : exec i s = .next (runCommand (bodyOf i) s) := by
  cases i <;> rfl

/-! ### The host's accesses -/

/-- What an access of the host can do if it is not refused, said once (20_memory R43). -/
theorem hostAccess_cases {a : HostAccess} {s t : State} (h : hostAccess a s = .next t) :
    (∃ r q, a = .read r ∧ HostReg.ofNumber r = some q ∧ (s.busy = true → readableBusy q = true)
      ∧ t = answer (registerValue q s) s) ∨
    (∃ r v q, a = .write r v ∧ HostReg.ofNumber r = some q ∧ s.busy = false
      ∧ (q.writable = true → v < 2 ^ q.width) ∧ t = writeRegister q v s) ∨
    (∃ i b, a = .writeIbuf i b ∧ s.busy = false ∧ i < Config.params.ibufCap
      ∧ t = { s with ibuf := s.ibuf.write i b }) ∨
    (∃ i, a = .readIbuf i ∧ s.busy = false ∧ i < Config.params.ibufCap
      ∧ t = answer ((s.ibuf.read i).setWidth 256) s) ∨
    (∃ i, a = .readObuf i ∧ s.busy = false ∧ i < Config.params.obufCap ∧ i < s.olen.toNat
      ∧ t = answer ((obufByte s i).setWidth 256) s) ∨
    (∃ i, a = .readObuf i ∧ s.busy = false ∧ i < Config.params.obufCap ∧ s.olen.toNat ≤ i
      ∧ t = answer ((drawByte s).1.setWidth 256) (drawByte s).2) := by
  cases a with
  | read r =>
    simp only [hostAccess, hostRead] at h
    split at h
    · cases h
    · rename_i q hq
      split at h
      · cases h
      · rename_i hb
        cases h
        refine Or.inl ⟨r, q, rfl, hq, fun hs => ?_, rfl⟩
        simpa [hs] using hb
  | write r v =>
    simp only [hostAccess, hostWrite] at h
    split at h
    · cases h
    · rename_i q hq
      split at h
      · cases h
      · split at h
        · cases h
        · rename_i hb hw
          cases h
          refine Or.inr (Or.inl ⟨r, v, q, rfl, hq, by simpa using hb, fun hwr => ?_, rfl⟩)
          exact Nat.lt_of_not_le fun hle => hw ⟨hwr, hle⟩
  | writeIbuf i b =>
    simp only [hostAccess, hostWriteIbuf] at h
    split at h
    · cases h
    · split at h
      · cases h
      · rename_i hb hi
        cases h
        exact Or.inr (Or.inr (Or.inl ⟨i, b, rfl, by simpa using hb, Nat.lt_of_not_le hi, rfl⟩))
  | readIbuf i =>
    simp only [hostAccess, hostReadIbuf] at h
    split at h
    · cases h
    · split at h
      · cases h
      · rename_i hb hi
        cases h
        exact Or.inr (Or.inr (Or.inr (Or.inl ⟨i, rfl, by simpa using hb, Nat.lt_of_not_le hi, rfl⟩)))
  | readObuf i =>
    simp only [hostAccess, hostReadObuf] at h
    split at h
    · cases h
    · split at h
      · cases h
      · rename_i hb hi
        split at h
        · rename_i ho
          cases h
          exact Or.inr (Or.inr (Or.inr (Or.inr (Or.inl
            ⟨i, rfl, by simpa using hb, Nat.lt_of_not_le hi, ho, rfl⟩))))
        · rename_i ho
          cases h
          exact Or.inr (Or.inr (Or.inr (Or.inr (Or.inr
            ⟨i, rfl, by simpa using hb, Nat.lt_of_not_le hi, Nat.le_of_not_lt ho, rfl⟩))))

/-! ### Who moves next -/

/-- The next action of the outside comes before the completion of a running command only if it is early. -/
theorem nextMove_outside {s : State} {early : Bool} {a : Action} {rest : List Input}
    (h : s.busy = true → early = true) (hi : s.inputs = ⟨early, a⟩ :: rest) :
    nextMove s = .outside a rest := by
  unfold nextMove
  rw [hi]
  cases hb : s.busy
  · rfl
  · simp [h hb]

theorem step_outside {s : State} {early : Bool} {a : Action} {rest : List Input}
    (h : s.busy = true → early = true) (hi : s.inputs = ⟨early, a⟩ :: rest) :
    step s = performAction a { s with inputs := rest } := by
  simp [step, nextMove_outside h hi]

/-- In the busy window only an early input is performed (20_memory R40). -/
theorem inputs_of_nextMove_busy {s : State} {a : Action} {rest : List Input} (hb : s.busy = true)
    (hm : nextMove s = .outside a rest) : s.inputs = ⟨true, a⟩ :: rest := by
  unfold nextMove at hm
  rw [hb] at hm
  rcases hi : s.inputs with _ | ⟨⟨early, b⟩, r⟩
  · simp [hi] at hm
  · cases early <;> simp [hi] at hm
    rw [hm.1, hm.2]

/-- The registers that can be read in the busy window are numbers 0 and 1 (20_memory R43). -/
theorem number_of_readableBusy {r : Nat} {q : HostReg} (hq : HostReg.ofNumber r = some q)
    (hr : readableBusy q = true) : r = 0 ∨ r = 1 := by
  rcases r with _ | _ | _ | _ | _ | _ | r <;> simp [HostReg.ofNumber] at hq <;> subst hq <;>
    simp [readableBusy] at hr <;> simp

/-- Register numbers 6 and above do not exist (10_state section 6). -/
theorem ofNumber_eq_none (r : Nat) : HostReg.ofNumber r = none ↔ 6 ≤ r := by
  rcases r with _ | _ | _ | _ | _ | _ | r <;> simp [HostReg.ofNumber]

/-! ### The step -/

/-- What a step can do, said once (20_memory R40): complete the running command, perform the next action of the
outside, or idle. -/
theorem step_cases {s t : State} (h : step s = .next t) :
    (s.completesNext ∧ ∃ i, decode s.cmdl = .ok i ∧ t = runCommand (bodyOf i) s) ∨
    (s.completesNext ∧ ∃ r, decode s.cmdl = .error r ∧ t = raise .illegalCommand s) ∨
    (∃ a rest, nextMove s = .outside (.host a) rest ∧ hostAccess a { s with inputs := rest } = .next t) ∨
    (∃ rest, nextMove s = .outside .reset rest ∧ t = resetEvent { s with inputs := rest }) ∨
    (nextMove s = .idle ∧ t = s) := by
  unfold step at h
  split at h
  · rename_i hm
    unfold completeStep commandWord at h
    split at h
    · rename_i r hd
      cases h
      exact Or.inr (Or.inl ⟨hm, r, hd, rfl⟩)
    · rename_i i hd
      rw [exec_eq] at h
      cases h
      exact Or.inl ⟨hm, i, hd, rfl⟩
  · rename_i a rest hm
    cases a with
    | host a => exact Or.inr (Or.inr (Or.inl ⟨a, rest, hm, h⟩))
    | reset => cases h; exact Or.inr (Or.inr (Or.inr (Or.inl ⟨rest, hm, rfl⟩)))
  · rename_i hm
    cases h
    exact Or.inr (Or.inr (Or.inr (Or.inr ⟨hm, rfl⟩)))

/-- The completion step comes next exactly when a command runs and no earlier action is to come (20_memory R40,
30_encoding R57). -/
theorem completesNext_iff (s : State) :
    s.completesNext ↔ s.busy = true ∧ ∀ i ∈ s.inputs.head?, i.early = false := by
  unfold State.completesNext nextMove
  cases hb : s.busy <;> cases hi : s.inputs with
  | nil => simp
  | cons i rest => cases he : i.early <;> simp [he]

/-- Right after `withFetchWord` the completion step comes next, and the word is in the latch. -/
theorem completesNext_withFetchWord (s : State) (nbits w : Nat) :
    (s.withFetchWord nbits w).completesNext := by
  rw [completesNext_iff]
  refine ⟨busy_withFetchWord s nbits w, fun i hi => ?_⟩
  rw [withFetchWord_inputs] at hi
  cases h : s.inputs with
  | nil => simp [h, holdInputs] at hi
  | cons j rest => simp [h, holdInputs] at hi; rw [← hi]

end Sys2Proof.Machine
end

