-- ==== Sys2Proof/Laws/Primality.lean ====
section
/-! SUPPORT. The default parameters meet the constraints of spec 00_scope R4, R5 and R7. The prime is certified
by Lucas' test: a base whose order modulo `p` is `p − 1`, and the prime factors of `p − 1`, each certified in
the same way. -/

namespace Sys2Proof.Machine

/-- Lucas' test, its powers computed by `powMod`. -/
theorem prime_of_certificate (p a : Nat) (fs : List Nat) (hp : 1 < p) (hprod : fs.prod = p - 1)
    (hfs : ∀ q ∈ fs, q.Prime) (h1 : powMod a (p - 1) p = 1)
    (hne : ∀ q ∈ fs, powMod a ((p - 1) / q) p ≠ 1) : p.Prime := by
  have cast_pow (k : Nat) : ((a : ZMod p)) ^ k = ((powMod a k p : Nat) : ZMod p) := by
    rw [powMod_eq, ZMod.natCast_mod, Nat.cast_pow]
  refine lucas_primality p (a : ZMod p) (by rw [cast_pow, h1, Nat.cast_one]) fun q hq hdvd => ?_
  rw [← hprod] at hdvd
  obtain ⟨r, hr, hqr⟩ := (Prime.dvd_prod_iff hq.prime).1 hdvd
  have : q = r := (Nat.prime_dvd_prime_iff_eq hq (hfs r hr)).1 hqr
  subst this
  intro h
  apply hne q hr
  rw [cast_pow] at h
  have h' : ((powMod a ((p - 1) / q) p : Nat) : ZMod p) = ((1 : Nat) : ZMod p) := by rw [h, Nat.cast_one]
  rw [ZMod.natCast_eq_natCast_iff'] at h'
  rw [Nat.mod_eq_of_lt hp] at h'
  rwa [powMod_eq, Nat.mod_mod, ← powMod_eq] at h'

theorem prime_7240687 : Nat.Prime 7240687 := by norm_num
theorem prime_13331831 : Nat.Prime 13331831 := by norm_num
theorem prime_107590001 : Nat.Prime 107590001 := by norm_num

set_option maxRecDepth 100000 in
theorem prime_factor_128bit : Nat.Prime 255515944373312847190720520512484175977 := by
  refine prime_of_certificate _ 3
    [2, 2, 2, 7, 7, 11, 1627, 2657, 4423, 41201, 96557, 7240687, 107590001]
    (by norm_num) (by norm_num) ?_ (by decide) (by decide)
  simp only [List.forall_mem_cons, List.not_mem_nil, false_imp_iff, implies_true, and_true,
    prime_7240687, prime_107590001]
  norm_num

set_option maxRecDepth 100000 in
theorem prime_factor_58bit : Nat.Prime 173378833005251801 := by
  refine prime_of_certificate _ 6 [2, 2, 2, 5, 5, 2621, 24809, 13331831]
    (by norm_num) (by norm_num) ?_ (by decide) (by decide)
  simp only [List.forall_mem_cons, List.not_mem_nil, false_imp_iff, implies_true, and_true, prime_13331831]
  norm_num

set_option maxRecDepth 100000 in
theorem prime_factor_75bit : Nat.Prime 22149492674086928081353 := by
  refine prime_of_certificate _ 5 [2, 2, 2, 3, 5323, 173378833005251801]
    (by norm_num) (by norm_num) ?_ (by decide) (by decide)
  simp only [List.forall_mem_cons, List.not_mem_nil, false_imp_iff, implies_true, and_true, prime_factor_58bit]
  norm_num

set_option maxRecDepth 100000 in
theorem prime_factor_77bit : Nat.Prime 132896956044521568488119 := by
  refine prime_of_certificate _ 6 [2, 3, 22149492674086928081353]
    (by norm_num) (by norm_num) ?_ (by decide) (by decide)
  simp only [List.forall_mem_cons, List.not_mem_nil, false_imp_iff, implies_true, and_true, prime_factor_75bit]
  norm_num

set_option maxRecDepth 100000 in
theorem prime_factor_237bit :
    Nat.Prime 205115282021455665897114700593932402728804164701536103180137503955397371 := by
  refine prime_of_certificate _ 10
    [2, 3, 5, 29, 29, 31, 7723, 132896956044521568488119, 255515944373312847190720520512484175977]
    (by norm_num) (by norm_num) ?_ (by decide) (by decide)
  simp only [List.forall_mem_cons, List.not_mem_nil, false_imp_iff, implies_true, and_true,
    prime_factor_77bit, prime_factor_128bit]
  norm_num

set_option maxRecDepth 100000 in
/-- The default `P` is prime (00_scope R4). -/
theorem prime_curve_p : Config.curve.p.Prime := by
  have h : Config.curve.p
      = 115792089237316195423570985008687907853269984665640564039457584007908834671663 := by
    norm_num [Config.curve]
  rw [h]
  refine prime_of_certificate _ 3
    [2, 3, 7, 13441, 205115282021455665897114700593932402728804164701536103180137503955397371]
    (by norm_num) (by norm_num) ?_ (by decide) (by decide)
  simp only [List.forall_mem_cons, List.not_mem_nil, false_imp_iff, implies_true, and_true,
    prime_factor_237bit]
  norm_num

/-- The default curve parameters meet 00_scope R4. -/
theorem curve_wf : Config.curve.wf where
  prime := prime_curve_p
  mod4 := by decide
  size := by decide
  a_lt := by decide
  b_lt := by decide

/-- The default parameters of this hardware are a legal parameter set (00_scope R4, R5, R7). -/
theorem params_wf : Config.params.wf where
  curve := curve_wf
  alphabet := by decide
  capacities := by decide

end Sys2Proof.Machine
end

