-- ==== Sys2Proof/Tests/Slice0.lean ====
section
/-! SUPPORT. Tests of the model on values the spec gives, the smoke tests of WellFormed, and for every statement
with hypotheses a witness that something meets them. The expected values come from spec/95_test_vectors.md (the ids
S…, D-…) and from the rules named. -/

namespace Sys2Proof.Tests
open Sys2Proof.Machine

/-! ### WellFormed: each check refuses an ill-formed term (30_encoding R49, 20_memory R43, 00_scope R4, R5, R7) -/

theorem test_refuse_reserved_bit : ¬ legalWord 0x0201 ∧ ¬ legalWord 0x8001 := by decide
theorem test_refuse_opcode : ¬ legalWord 0x0000 ∧ ¬ legalWord 0x0005 ∧ ¬ legalWord 0x00FF := by decide
theorem test_refuse_flag : ¬ legalWord 0x0101 ∧ ¬ legalWord 0x0112 ∧ ¬ legalWord 0x0123 := by decide
theorem test_instr_wf : ∀ i ∈ Instr.all, i.wf := by decide
theorem test_refuse_access :
    HostAccess.wf Config.params (.read 6) = false ∧ HostAccess.wf Config.params (.write 6 0) = false ∧
    HostAccess.wf Config.params (.write 0 0x10000) = false ∧
    HostAccess.wf Config.params (.write 4 (2 ^ 256)) = false ∧
    HostAccess.wf Config.params (.writeIbuf 128 0) = false ∧
    HostAccess.wf Config.params (.readIbuf 128) = false ∧
    HostAccess.wf Config.params (.readObuf 264) = false := by decide
theorem test_accept_access :
    HostAccess.wf Config.params (.read 5) = true ∧ HostAccess.wf Config.params (.write 0 0xFFFF) = true ∧
    HostAccess.wf Config.params (.write 3 0x10000) = true ∧
    HostAccess.wf Config.params (.writeIbuf 127 0) = true ∧
    HostAccess.wf Config.params (.readObuf 263) = true := by decide
theorem test_refuse_curve :
    ¬ Curve.ranges ⟨13, 0, 7⟩ ∧ ¬ Curve.ranges ⟨2 ^ 256 + 3, 0, 7⟩ ∧ ¬ Curve.ranges ⟨7, 7, 0⟩ ∧
    ¬ Curve.ranges ⟨7, 0, 7⟩ := by decide
theorem test_refuse_composite : ¬ Curve.wf ⟨15, 0, 7⟩ := fun h => absurd (show Nat.Prime 15 from h.prime) (by norm_num)
theorem test_refuse_alphabet :
    ¬ alphabetWf (0x31 :: Config.alphabet) ∧ ¬ alphabetWf (0x32 :: Config.alphabet.tail) := by decide
theorem test_refuse_capacities :
    ¬ capacitiesWf 0 264 ∧ ¬ capacitiesWf 128 263 ∧ ¬ capacitiesWf 1 64 ∧ ¬ capacitiesWf 65536 65535 := by
  decide

/-! ### Decoding: the words of 30_encoding R46 and R48, bit by bit (`RSV`, `C`, `OP`) -/

theorem test_decode_b58enc : decode 0b0000000000000001 = .ok .b58enc := by decide
theorem test_decode_b58dec : decode 0b0000000000000010 = .ok .b58dec := by decide
theorem test_decode_b58cenc : decode 0b0000000000000011 = .ok .b58cenc := by decide
theorem test_decode_b58cdec : decode 0b0000000000000100 = .ok .b58cdec := by decide
theorem test_decode_pt2pk :
    decode 0b0000000000010000 = .ok (.pt2pk false) ∧ decode 0b0000000100010000 = .ok (.pt2pk true) := by decide
theorem test_decode_recy :
    decode 0b0000000000010001 = .ok (.recy false) ∧ decode 0b0000000100010001 = .ok (.recy true) := by decide
theorem test_decode_pk2pt : decode 0b0000000000010010 = .ok .pk2pt := by decide
theorem test_decode_hash160 : decode 0b0000000000100000 = .ok .hash160 := by decide
theorem test_decode_addr : decode 0b0000000000100001 = .ok .addr := by decide
theorem test_decode_wifenc :
    decode 0b0000000000100010 = .ok (.wifenc false) ∧ decode 0b0000000100100010 = .ok (.wifenc true) := by decide
theorem test_decode_wifdec : decode 0b0000000000100011 = .ok .wifdec := by decide
theorem test_decode_sec2pk :
    decode 0b0000000000100100 = .ok (.sec2pk false) ∧ decode 0b0000000100100100 = .ok (.sec2pk true) := by decide

/-- D-X1 to D-X5: illegal words, each rejected for the test it fails. -/
theorem test_decode_rejects :
    decode 0x0000 = .error .unknownOpcode ∧ decode 0x0101 = .error .flagNotAllowed ∧
    decode 0x0201 = .error .reservedBits ∧ decode 0x8001 = .error .reservedBits ∧
    decode 0x0005 = .error .unknownOpcode ∧ decode 0x0013 = .error .unknownOpcode ∧
    decode 0x0025 = .error .unknownOpcode ∧ decode 0x00FF = .error .unknownOpcode := by decide
theorem test_decode_rejects_flag :
    decode 0x0112 = .error .flagNotAllowed ∧ decode 0x0120 = .error .flagNotAllowed ∧
    decode 0x0121 = .error .flagNotAllowed ∧ decode 0x0123 = .error .flagNotAllowed := by decide

/-- 30_encoding R46: "`PT2PK` with `compressed = true` is ... word `0x0110`". -/
theorem test_encode_pt2pk : encode (.pt2pk true) = 0x0110 ∧ decodeTableWord 16 0x0110 = some (.pt2pk true) := by
  decide

/-! ### The plain codec (95_test_vectors sections 1 and 2) -/

/-- S1 and D-E1, D-E6, D-E7, D-E9, D-E10, D-E11. -/
theorem test_b58enc :
    b58enc Config.params [0, 0, 0] = [0x31, 0x31, 0x31] ∧ b58enc Config.params [] = [] ∧
    b58enc Config.params [0x3A] = [0x32, 0x31] ∧ b58enc Config.params [0xFF] = [0x35, 0x51] ∧
    b58enc Config.params [0, 0, 1] = [0x31, 0x31, 0x32] ∧
    b58enc Config.params [0, 1, 0] = [0x31, 0x35, 0x52] ∧
    b58enc Config.params [0xFF, 0xFF] = [0x4C, 0x55, 0x76] := by decide

/-- D-D1, D-D6, D-D7, D-D8, and D-D9, D-D14 to D-D17: `InvalidCharacter` wherever the character stands. -/
theorem test_b58dec :
    b58dec Config.params [] = .ok [] ∧ b58dec Config.params [0x31, 0x7A] = .ok [0x00, 0x39] ∧
    b58dec Config.params [0x7A, 0x7A] = .ok [0x0D, 0x23] ∧
    b58dec Config.params [0x32, 0x31, 0x31] = .ok [0x0D, 0x24] ∧
    ∀ t ∈ ([[0x30], [0x32, 0x20, 0x31], [0x61, 0x62, 0x63, 0x30], [0x31, 0x00], [0x31, 0x80]] : List ByteString),
      b58dec Config.params t = .error .invalidCharacter := by decide

/-! ### The checksum envelope, with the digests of 95_test_vectors section 3 as a table -/

/-- A digest of which only the first bytes are known. -/
def digest (bs : ByteString) : Vector Byte 32 := Vector.ofFn fun i => bs.getD i.val 0

/-- The default parameters with `SHA256` known on two arguments: what `p` gives, and what that gives. -/
def tableParams (p : ByteString) (inner outer : Vector Byte 32) (ripemd : Vector Byte 20) : Params :=
  { Config.params with
    sha256 := fun x => if x = p then inner else if x = inner.toList then outer else digest []
    ripemd160 := fun _ => ripemd }

/-- `SHA256([]) = E3B0…`, `SHA256` of it `5DF6E0E2…` (the first bytes stand for the digest). -/
def emptyParams : Params :=
  tableParams [] (digest [0xE3, 0xB0, 0xC4, 0x42]) (digest [0x5D, 0xF6, 0xE0, 0xE2, 0x76])
    (Vector.replicate 20 0)

/-- D-C1, D-C4: `"3QJmnh"`. -/
theorem test_b58cenc_empty :
    b58cenc emptyParams [] = [0x33, 0x51, 0x4A, 0x6D, 0x6E, 0x68] ∧
    b58cdec emptyParams [0x33, 0x51, 0x4A, 0x6D, 0x6E, 0x68] = .ok [] := by decide

/-- D-C6c, D-C7, D-C8, D-C9: length, checksum, character before checksum, checksum of a 4-byte string. -/
theorem test_b58cdec_errors :
    b58cdec emptyParams [0x31, 0x31, 0x31] = .error .lengthError ∧
    b58cdec emptyParams [0x33, 0x51, 0x4A, 0x6D, 0x6E, 0x6A] = .error .checksumError ∧
    b58cdec emptyParams [0x33, 0x51, 0x4A, 0x6D, 0x6E, 0x30] = .error .invalidCharacter ∧
    b58cdec emptyParams [0x31, 0x31, 0x31, 0x31] = .error .checksumError := by decide

/-! ### The Key/Point codec (95_test_vectors section 4) -/

/-- D-K4, D-K4b, D-K4c: padding on the left, parity, values of `P` or more as they are. -/
theorem test_pt2pk :
    pt2pk 0 0 true = 0x02 :: List.replicate 32 0 ∧ pt2pk 1 1 true = 0x03 :: List.replicate 31 0 ++ [0x01] ∧
    pt2pk (2 ^ 256 - 1) (2 ^ 256 - 1) false = 0x04 :: List.replicate 64 0xFF := by decide

/-- The base point of 41_keypoint R83. -/
def gx : Nat := 0x79BE667EF9DCBBAC55A06295CE870B07029BFCDB2DCE28D959F2815B16F81798
def gy : Nat := 0x483ADA7726A3C4655DA4FBFC0E1108A8FD17B448A68554199C47D08FFB10D4B8

/-- The toy curve of section 4.2, and one with `A ≠ 0`. -/
def toyCurve : Curve := ⟨7, 0, 6⟩
def toyCurveA : Curve := ⟨7, 1, 0⟩

set_option maxRecDepth 100000 in
/-- D-K5, D-K6 and D-K14: both roots of a point, and an X without point. -/
theorem test_recy :
    recy Config.curve gx false = gy ∧ recy Config.curve gx true = Config.curve.p - gy ∧
    recy Config.curve 5 false
      = 0x350AE3B48047ADACDEEA49FB8A0B289A94F726801078408ABA79631FA7A1B6BA := by decide

/-- The toy rows of section 4.2: `y2 = 0` with either flag, and a number that is not a square. -/
theorem test_recy_toy :
    recy toyCurve 1 false = 0 ∧ recy toyCurve 1 true = 7 ∧ recy toyCurve 3 false = 4 ∧ recy toyCurve 3 true = 3 ∧
    recy toyCurve 0 false = 6 := by decide

/-- 41_keypoint R84, 90_conflicts C2: the middle term is `A·x^2`: at `x = 2` the sum is `8 + 4 = 12`, 5 modulo 7. -/
theorem test_recy_literal_term : curveRhs toyCurveA 2 = 5 := by decide

/-- D-K24, D-K26 to D-K34. -/
theorem test_pk2pt :
    pk2pt toyCurve (0x04 :: List.replicate 64 0xFF) = .ok (2 ^ 256 - 1, 2 ^ 256 - 1) ∧
    pk2pt toyCurve (0x03 :: List.replicate 31 0 ++ [0x03]) = .ok (3, 3) ∧
    pk2pt toyCurve [] = .error .lengthError ∧ pk2pt toyCurve [0x04] = .error .lengthError ∧
    pk2pt toyCurve [0x05] = .error .invalidFormatError ∧
    pk2pt toyCurve (0x02 :: List.replicate 64 0) = .error .lengthError ∧
    pk2pt toyCurve (0x04 :: List.replicate 32 0) = .error .lengthError ∧
    pk2pt toyCurve (0x02 :: List.replicate 33 0) = .error .lengthError ∧
    pk2pt toyCurve (0x05 :: List.replicate 33 0) = .error .invalidFormatError := by decide

/-! ### Derivation (95_test_vectors sections 1 and 5) -/

/-- The 65 bytes of S2, its hash-160 and its checksum. -/
def s2Key : ByteString := pt2pk gx gy false
def s2Digest : Vector Byte 20 := Vector.ofFn fun i => (nat2be 0x91B24BF9F5288532960AC687ABB035127B1D28A5 20).getD i.val 0

set_option maxRecDepth 100000 in
/-- S2, second half: the address `1EHNa6Q4Jz2uvNExL497mE43ikXhwF6kZm`. -/
theorem test_addr :
    addressOf (tableParams (0x00 :: s2Digest.toList) (digest [1]) (digest [0x00, 0x74, 0xFF, 0xE0]) s2Digest) s2Key
      = [0x31, 0x45, 0x48, 0x4E, 0x61, 0x36, 0x51, 0x34, 0x4A, 0x7A, 0x32, 0x75, 0x76, 0x4E, 0x45, 0x78, 0x4C]
        ++ [0x34, 0x39, 0x37, 0x6D, 0x45, 0x34, 0x33, 0x69, 0x6B, 0x58, 0x68, 0x77, 0x46, 0x36, 0x6B, 0x5A, 0x6D] := by
  decide

/-- The secret "1" of section 5. -/
def s1 : ByteString := nat2be 1 32

/-- The text of D-W2. -/
def w2Text : ByteString :=
  [0x4B, 0x77, 0x44, 0x69, 0x42, 0x66, 0x38, 0x39, 0x51, 0x67, 0x47, 0x62, 0x6A, 0x45, 0x68, 0x4B, 0x6E, 0x68]
  ++ [0x58, 0x4A, 0x75, 0x48, 0x37, 0x4C, 0x72, 0x63, 0x69, 0x56, 0x72, 0x5A, 0x69, 0x33, 0x71, 0x59, 0x6A, 0x67]
  ++ [0x64, 0x39, 0x4D, 0x37, 0x72, 0x46, 0x55, 0x37, 0x33, 0x73, 0x56, 0x48, 0x6E, 0x6F, 0x57, 0x6E]

/-- `cksum(80 ‖ S1 ‖ 01) = 46 71 FC 3F`. -/
def w2Params : Params :=
  tableParams ([0x80] ++ s1 ++ [0x01]) (digest [1]) (digest [0x46, 0x71, 0xFC, 0x3F]) (Vector.replicate 20 0)

set_option maxRecDepth 100000 in
/-- D-W2, D-W6: `WIFENC.C` and back. -/
theorem test_wif : wifOf w2Params s1 true = .ok w2Text ∧ secretOfWif w2Params w2Text = .ok s1 := by decide

/-- D-W3, D-W4; D-W12, D-W13: lengths. -/
theorem test_wif_lengths :
    wifOf w2Params (List.replicate 31 0) false = .error .lengthError ∧
    wifOf w2Params (List.replicate 33 0) true = .error .lengthError ∧
    secretOfPayload (0x80 :: List.replicate 31 0) = .error .invalidFormatError ∧
    secretOfPayload [] = .error .invalidFormatError ∧
    secretOfPayload ([0x80] ++ s1 ++ [0x01, 0x01]) = .error .invalidFormatError ∧
    secretOfPayload ([0xEF] ++ s1 ++ [0x02]) = .ok s1 := by decide

/-! ### Single steps of the machine (95_test_vectors section 6) -/

/-- The state with an input, idle. -/
def loaded (bs : ByteString) : State :=
  { State.reset with ibuf := memWrite [] 0 bs, ilen := BitVec.ofNat 16 bs.length, px := 0x11, py := 0x22 }

/-- The state with an input in which a command word has been issued. -/
def issued (w : Nat) (bs : ByteString) : State := (loaded bs).withFetchWord 16 w

/-- A fact about the next state; false if there is none. -/
def Leads (o : Host.Outcome State Fault Refusal) (p : State → Bool) : Bool :=
  match o with
  | .next t => p t
  | _ => false

/-- D-X1: after the issue `STATUS = 0x0001`, after the completion `0x0052`. -/
theorem test_illegal_word :
    (issued 0x0000 [0x00]).status = 0x0001 ∧
    Leads (step (issued 0x0000 [0x00]))
      (fun t => t.status == 0x0052 && t.olen == 0 && t.px == 0x11 && t.py == 0x22) = true := by decide

/-- D-X6, D-X7, D-X8: capacity, for every legal command, after legality. -/
theorem test_capacity :
    Leads (step { issued 0x0001 [] with ilen := 129 }) (fun t => t.status == 0x0062 && t.ilen == 129) = true ∧
    Leads (step { issued 0x0011 [] with ilen := 65535 }) (fun t => t.status == 0x0062 && t.py == 0x22) = true ∧
    Leads (step { issued 0x0000 [] with ilen := 129 }) (fun t => t.status == 0x0052) = true := by decide

/-- D-X10: `STATUS = 0x0002`, `OLEN = 1`, `OBUF[0] = ZSYM`. -/
theorem test_b58enc_step :
    Leads (step (issued 0x0001 [0x00])) (fun t => t.status == 0x0002 && t.olen == 1 && obufByte t 0 == 0x31) = true := by
  decide

/-- D-D7 and D-D9 as steps. -/
theorem test_b58dec_step :
    Leads (step (issued 0x0002 [0x7A, 0x7A])) (fun t => t.status == 0x0002 && outputBytes t == [0x0D, 0x23]) = true ∧
    Leads (step (issued 0x0002 [0x30])) (fun t => t.status == 0x0012 && t.olen == 0) = true := by decide

/-- `B58CENC` completes; D-C6c and D-C8 as steps of `B58CDEC`. -/
theorem test_checked_steps :
    Leads (step (issued 0x0003 [])) (fun t => t.status == 0x0002) = true ∧
    Leads (step (issued 0x0004 [0x31, 0x31, 0x31])) (fun t => t.status == 0x0032) = true ∧
    Leads (step (issued 0x0004 [0x33, 0x30])) (fun t => t.status == 0x0012) = true := by decide

/-- D-K4-like: `PT2PK.C` of (0x11, 0x22); D-K28: `PK2PT` of `05`. -/
theorem test_point_steps :
    Leads (step (issued 0x0110 [])) (fun t => t.olen == 33 && obufByte t 0 == 0x02 && obufByte t 32 == 0x11) = true ∧
    Leads (step (issued 0x0012 [0x05])) (fun t => t.status == 0x0042 && t.px == 0x11 && t.py == 0x22) = true := by
  decide

set_option maxRecDepth 100000 in
/-- D-K10: `RECY` with `PX = 1`. -/
theorem test_recy_step :
    Leads (step { issued 0x0011 [] with px := 1 }) (fun t => t.status == 0x0002 && t.olen == 0 && t.px == 1
      && t.py == 0x4218F20AE6C646B363DB68605822FB14264CA8D2587FDD6FBC750D587E76A7EE) = true := by decide

/-- `HASH160`, `ADDR`, `WIFENC`, `SEC2PK` complete; D-W3, D-W16 and D-P5s fail. -/
theorem test_derivation_steps :
    Leads (step (issued 0x0020 [])) (fun t => t.status == 0x0002) = true ∧
    Leads (step (issued 0x0021 [])) (fun t => t.status == 0x0002) = true ∧
    Leads (step (issued 0x0022 s1)) (fun t => t.status == 0x0002) = true ∧
    Leads (step (issued 0x0124 s1)) (fun t => t.status == 0x0002) = true ∧
    Leads (step (issued 0x0022 (List.replicate 31 0))) (fun t => t.status == 0x0032) = true ∧
    Leads (step (issued 0x0023 [0x31, 0x31, 0x31])) (fun t => t.status == 0x0032) = true ∧
    Leads (step (issued 0x0024 (List.replicate 31 0))) (fun t => t.status == 0x0032 && t.px == 0x11) = true := by
  decide

/-- D-X13, D-X14, D-X15: read-only registers, `CMD` reads 0, refusals in the busy window. -/
theorem test_host_accesses :
    hostAccess (.write 1 0xFFFF) State.reset = .next State.reset ∧
    hostAccess (.write 3 7) State.reset = .next State.reset ∧
    Leads (hostAccess (.read 0) (issued 0x0001 [])) (fun t => t.hostData == 0) = true ∧
    Leads (hostAccess (.read 1) (issued 0x0001 [])) (fun t => t.hostData == 1) = true ∧
    hostAccess (.write 0 0x0002) (issued 0x0001 []) = .refused .busyAccess ∧
    hostAccess (.writeIbuf 0 5) (issued 0x0001 []) = .refused .busyAccess ∧
    hostAccess (.read 3) (issued 0x0001 []) = .refused .busyAccess :=
  ⟨rfl, rfl, by decide, by decide, rfl, rfl, rfl⟩

/-! ### Host programs (30_encoding R53 to R55) -/

theorem test_macros :
    macroLdi [] = [.wr .ilen (.lit 0)] ∧
    macroLdi [0x00, 0x2A] = [.wri 0 (.lit 0), .wri 1 (.lit 0x2A), .wr .ilen (.lit 2)] ∧
    macroLds "1z" = macroLdi [0x31, 0x7A] ∧
    copyOutLines 1 = [.rdo 0, .wri 0 .byte, .wr .ilen (.lit 1)] := by decide

/-- `WRI 0, STATUS'` writes the byte 0x22 and refuses 0x0122, which is no byte (log entry 9). -/
theorem test_wri_width :
    HostRun.turn .host { HostRun.start [.wri 0 (.reg .status)] with regs := #v[0, 0x0122, 0, 0, 0, 0] }
      = .refused .valueTooWide ∧
    (match HostRun.turn .host { HostRun.start [.wri 0 (.reg .status)] with regs := #v[0, 0x0022, 0, 0, 0, 0] } with
      | .next h => h.unit.ibuf.read 0 == 0x22
      | _ => false) = true := ⟨rfl, by decide⟩

/-- `IF ERR = 2 GOTO done` on `STATUS' = 0x0022`, and a line that issues a command. -/
theorem test_host_lines :
    HostRun.holds { HostRun.start [] with regs := #v[0, 0x0022, 0, 0, 0, 0] } (condErr true 2) = true ∧
    (match HostRun.turn .host (HostRun.start [.command (.pt2pk true)]) with
      | .next h => h.unit.cmdl == 0x0110 && h.unit.busy && h.todo == []
      | _ => false) = true := by decide

/-! ### Witnesses: the hypotheses of each statement are met, each clause's at a boundary of its range -/

/-- A running command, with what the outside does next. -/
def running (inputs : List Input) : State := { issued 0x0001 [0x00] with inputs := inputs }

/-- An idle unit, with what the outside does next. -/
def idling (inputs : List Input) : State := { loaded [0x00] with inputs := inputs }

/-- A unit whose last command has left a result of so many zero bytes. -/
def delivered (n : Nat) : State := { loaded [] with olen := BitVec.ofNat 16 n, obufRest := some 0 }

theorem legal_reset : StatusLegal 0 := ⟨by decide, by decide, by decide, by decide⟩
theorem legal_busy : StatusLegal statusIssued := ⟨by decide, by decide, by decide, by decide⟩

theorem inv_idling (l : List Input) : (idling l).Inv :=
  ⟨rfl, rfl, rfl, rfl, Nat.zero_le _, legal_reset, fun _ => rfl⟩
theorem inv_running (l : List Input) : (running l).Inv :=
  ⟨rfl, rfl, rfl, rfl, Nat.zero_le _, legal_busy, fun _ => rfl⟩

theorem witness_StepKeepsInvariant :
    (running []).Inv ∧ (∃ t, step (running []) = .next t) ∧
    (idling [⟨false, .host (.writeIbuf 127 0xFF)⟩]).Inv ∧
    ∃ t, step (idling [⟨false, .host (.writeIbuf 127 0xFF)⟩]) = .next t :=
  ⟨inv_running _, ⟨_, rfl⟩, inv_idling _, ⟨_, rfl⟩⟩

theorem witness_StepRunsDecodedCommand :
    (running []).busy = true ∧ (∀ x ∈ (running []).inputs.head?, x.early = false) ∧
    (running [⟨false, .reset⟩]).busy = true ∧
    (∀ x ∈ (running [⟨false, .reset⟩]).inputs.head?, x.early = false) ∧
    decode (running []).cmdl = .ok .b58enc := by decide

theorem witness_BusyUntilCompletionOrReset :
    (running [⟨true, .host (.read 1)⟩]).busy = true ∧
    (∃ t, step (running [⟨true, .host (.read 1)⟩]) = .next t ∧ t.busy = true) ∧
    (∃ t, step (running []) = .next t ∧ statusDone t.status = true) ∧
    ∃ t, step (running [⟨true, .reset⟩]) = .next t ∧ t.busy = false ∧ statusDone t.status = false :=
  ⟨by decide, ⟨_, rfl, by decide⟩, ⟨_, rfl, by decide⟩, ⟨_, rfl, by decide, by decide⟩⟩

theorem witness_RunningCommandEnds :
    (running [⟨true, .host (.read 1)⟩, ⟨true, .host (.read 0)⟩, ⟨false, .host (.write 0 4)⟩]).busy = true ∧
    ∀ x ∈ (running [⟨true, .host (.read 1)⟩, ⟨true, .host (.read 0)⟩, ⟨false, .host (.write 0 4)⟩]).inputs,
      x.early = true → x.act = .host (.read 0) ∨ x.act = .host (.read 1) := by decide

theorem witness_IssueStep :
    (idling [⟨false, .host (.write 0 0)⟩]).idleBefore (.host (.write 0 0)) [] ∧
    (idling [⟨true, .host (.write 0 0xFFFF)⟩]).idleBefore (.host (.write 0 0xFFFF)) [] ∧
    (running [⟨true, .host (.write 0 2)⟩]).busy = true :=
  ⟨⟨rfl, _, rfl⟩, ⟨rfl, _, rfl⟩, by decide⟩

theorem witness_BusyWindowRefusesAccess :
    (running [⟨true, .host (.write 0 2)⟩]).busy = true ∧ HostAccess.write 0 2 ≠ .read 0 ∧
    HostAccess.write 0 2 ≠ .read 1 ∧ HostAccess.read 2 ≠ .read 1 ∧ HostAccess.read 6 ≠ .read 1 := by decide

theorem witness_StatusReadAnyTime :
    ((running [⟨true, .host (.read 1)⟩]).busy = true → true = true) ∧
    ((idling [⟨false, .host (.read 0)⟩]).busy = true → false = true) := by decide

theorem witness_RegisterAccessWhenIdle :
    (delivered 264).busy = false ∧ 0xFFFF < 2 ^ 16 ∧ 2 ^ 256 - 1 < 2 ^ 256 := by decide

theorem witness_InputBufferAccess :
    (idling []).Inv ∧ (idling []).busy = false ∧ 0 < Config.params.ibufCap ∧ 127 < Config.params.ibufCap :=
  ⟨inv_idling [], by decide, by decide, by decide⟩

theorem witness_OutputBufferRead :
    (delivered 1).busy = false ∧ 0 < (delivered 1).olen.toNat ∧ (delivered 1).olen.toNat ≤ 1 ∧
    263 < Config.params.obufCap ∧ 263 < (delivered 264).olen.toNat := by decide

theorem witness_OutsideAccessRefused :
    (running []).busy = true ∧ (idling []).busy = false ∧ Config.params.ibufCap ≤ 128 ∧
    Config.params.obufCap ≤ 264 := by decide

theorem witness_ResetEventWhole :
    ((running [⟨true, .reset⟩]).busy = true → true = true) ∧
    ((idling [⟨false, .reset⟩]).busy = true → false = true) := by decide

/-- A host at the start of these lines, with this unit. -/
def hosting (todo : List HostLine) (u : State) : HostRun := { HostRun.start todo with unit := u }

set_option maxRecDepth 100000 in
theorem witness_LdiLoadsInput :
    (hosting (macroLdi (List.replicate 128 0xFF)) (idling [])).unit.Inv ∧
    (hosting (macroLdi []) (idling [])).unit.busy = false ∧
    (List.replicate 128 (0xFF : Byte)).length ≤ Config.params.ibufCap ∧
    (hosting (macroLdi []) (idling [])).todo = macroLdi [] ++ [] :=
  ⟨inv_idling [], by decide, by decide, rfl⟩

theorem witness_CopyMacroMovesOutput :
    (hosting macroO2i (delivered 128)).unit.Inv ∧ (hosting macroO2i (delivered 128)).unit.busy = false ∧
    (hosting macroO2i (delivered 128)).unit.olen.toNat ≤ Config.params.ibufCap ∧
    (hosting macroO2i (delivered 128)).todo = macroO2i ++ [] :=
  ⟨⟨by decide, by decide, by decide, by decide, by decide, legal_reset, by decide⟩, by decide, by decide, rfl⟩

theorem witness_IllegalCommandExactly :
    (issued 0x0000 []).completesNext ∧ ¬ legalWord (issued 0x0000 []).cmdl ∧
    (issued 0x0124 []).completesNext ∧ legalWord (issued 0x0124 []).cmdl := by decide

theorem witness_CapacityErrorExactly :
    ({ issued 0x0011 [] with ilen := 129 } : State).completesNext ∧ legalWord (issued 0x0011 []).cmdl ∧
    Config.params.ibufCap < (129 : Word16).toNat ∧ (128 : Word16).toNat ≤ Config.params.ibufCap := by decide

/-- The right side of the statement holds of `B58DEC`, `B58CDEC`, `WIFDEC` alike, on `"0"`. -/
theorem witness_InvalidCharacterExactly :
    (loaded [0x30]).fits ∧ ∃ ch ∈ inputBytes (loaded [0x30]), symbolIndex Config.params ch = none :=
  ⟨by decide, 0x30, by decide, by decide⟩

/-- On `"1111"` or on `"1112"`, whichever 4 bytes `cksum([])` is not. -/
theorem witness_ChecksumErrorExactly :
    ∃ s : State, s.fits ∧ ∃ p k, b58dec Config.params (inputBytes s) = .ok (p ++ k) ∧ k.length = 4 ∧
      cksum Config.params p ≠ k := by
  by_cases h : cksum Config.params [] = [0, 0, 0, 0]
  · exact ⟨loaded [0x31, 0x31, 0x31, 0x32], by decide, [], [0, 0, 0, 1], by decide, rfl, by rw [h]; decide⟩
  · exact ⟨loaded [0x31, 0x31, 0x31, 0x31], by decide, [], [0, 0, 0, 0], by decide, rfl, h⟩

set_option maxRecDepth 100000 in
/-- Each case of the statement: `"111"`, lengths 31 and 33, the empty input, `04` and `02` of a wrong length. -/
theorem witness_LengthErrorExactly :
    (∃ d, b58dec Config.params (inputBytes (loaded [0x31, 0x31, 0x31])) = .ok d ∧ d.length < 4) ∧
    (loaded (List.replicate 31 0)).ilen ≠ 32 ∧ (loaded (List.replicate 33 0)).ilen ≠ 32 ∧
    (loaded []).ilen = 0 ∧
    ((inputBytes (loaded (0x04 :: List.replicate 32 0))).head? = some 0x04 ∧
      (loaded (0x04 :: List.replicate 32 0)).ilen ≠ 65) ∧
    (inputBytes (loaded (0x02 :: List.replicate 64 0))).head? = some 0x02 ∧
    (loaded (0x02 :: List.replicate 64 0)).ilen ≠ 33 :=
  ⟨⟨[0, 0, 0], by decide, by decide⟩, by decide, by decide, by decide, by decide, by decide, by decide⟩

set_option maxRecDepth 100000 in
theorem witness_CommandsRaiseOnlyTheirErrors :
    (loaded []).fits ∧ (loaded (List.replicate 128 0xFF)).fits ∧
    ∀ e, FailsWith (loaded []) (raise e (loaded [])) e :=
  ⟨by decide, by decide, fun e => failsWith_raise e _⟩

/-- Two states that differ in everything a command does not read. -/
theorem witness_CommandResultIsPure :
    (issued 0x0002 [0x7A]).cmdl = { issued 0x0002 [0x7A, 0x55] with ilen := 1, olen := 9, draws := 5 }.cmdl ∧
    (issued 0x0002 [0x7A]).ilen = { issued 0x0002 [0x7A, 0x55] with ilen := 1, olen := 9, draws := 5 }.ilen ∧
    ∀ i, i < (issued 0x0002 [0x7A]).ilen.toNat →
      (issued 0x0002 [0x7A]).ibuf.read i
        = { issued 0x0002 [0x7A, 0x55] with ilen := 1, olen := 9, draws := 5 }.ibuf.read i := by decide

/-- For `Base58RoundTrip`, `Base58Lengths`, `Base58DigitsAndZeros` and `CheckedRoundTrip`. -/
theorem witness_Base58RoundTrip :
    alphabetWf Config.params.alphabet ∧ alphabetWf Config.alphabet.reverse ∧
    allSymbols Config.params [0x31, 0x7A] ∧ be2nat [0, 0] = 0 ∧ be2nat [0, 1] ≠ 0 := by decide

theorem witness_CheckedDecodeVerdict :
    ¬ allSymbols emptyParams [0x31, 0x30] ∧ b58dec emptyParams [0x31, 0x31, 0x31] = .ok [0, 0, 0] ∧
    b58dec emptyParams [0x33, 0x51, 0x4A, 0x6D, 0x6E, 0x68] = .ok ([] ++ [0x5D, 0xF6, 0xE0, 0xE2]) ∧
    cksum emptyParams [] = [0x5D, 0xF6, 0xE0, 0xE2] ∧
    b58dec emptyParams [0x33, 0x51, 0x4A, 0x6D, 0x6E, 0x6A] = .ok ([] ++ [0x5D, 0xF6, 0xE0, 0xE4]) ∧
    cksum emptyParams [] ≠ [0x5D, 0xF6, 0xE0, 0xE4] := by decide

set_option maxRecDepth 100000 in
/-- For `B58encCompletes`, `B58cencCompletes`, `Pt2pkCompletes`, `RecyCompletes`, `Hash160Completes`, `AddrCompletes`:
the longest input that passes the capacity test. -/
theorem witness_fits : (loaded (List.replicate 128 0xFF)).fits ∧ (loaded []).fits := by decide

theorem witness_B58decCompletes :
    (loaded [0x31, 0x7A]).fits ∧ allSymbols Config.params (inputBytes (loaded [0x31, 0x7A])) ∧
    allSymbols Config.params (inputBytes (loaded [])) := by decide

theorem inputBytes_loaded {bs : ByteString} (h : bs.length < 2 ^ 16) : inputBytes (loaded bs) = bs := by
  have hl : (loaded bs).ilen.toNat = bs.length := by simpa [loaded] using h
  rw [inputBytes, hl]
  exact memRead_memWrite rfl 0 bs

/-- The text of a byte string that begins with a byte other than 0 decodes to it, and fits a buffer. -/
theorem text_of {b : Byte} {bs : ByteString} (hb : b ≠ 0) (hl : bs.length ≤ 37) :
    b58dec Config.params (b58enc Config.params (b :: bs)) = .ok (b :: bs) ∧
    (b58enc Config.params (b :: bs)).length ≤ 76 := by
  have hc : Config.params.alphabet.length = 58 ∧ Config.params.alphabet.Nodup := params_wf.alphabet
  have hb' : ¬ b = 0#8 := hb
  have hz : lz (b :: bs) = 0 := by simp [lz, leadingCount, hb']
  have hd : ∀ d ∈ (digitsLE 58 (be2nat (b :: bs))).reverse, d < 58 := fun d h =>
    digitsLE_lt (by norm_num) _ d (List.mem_reverse.1 h)
  have ht : b58enc Config.params (b :: bs)
      = (List.replicate 0 0 ++ (digitsLE 58 (be2nat (b :: bs))).reverse).map (symbolOf Config.params) := by
    rw [b58enc_eq_map, hz]
  have hd0 := head_digitsLE_reverse (base := 58) (by norm_num) (be2nat (b :: bs))
  constructor
  · rw [ht, b58dec, charDigits_map hc (by simpa using hd)]
    simp only
    rw [leadingCount_map_symbolOf hc 0 hd hd0, digitsValue_zeros, Config.radix, digitsValue_digitsLE (by norm_num),
      nat2beMin_be2nat (by simpa using hb)]
    rfl
  · rw [ht, List.length_map, List.length_append, List.length_replicate, List.length_reverse,
      digitsLE_eq 58 (by norm_num), Nat.zero_add, Nat.digits_length_le_iff (by norm_num)]
    refine lt_of_lt_of_le (be2nat_lt _) (le_trans (Nat.pow_le_pow_right (n := 256) (i := (b :: bs).length) (j := 38) (by norm_num) ?_) ?_)
    · rw [List.length_cons]; omega
    · norm_num

/-- A checked text of a payload that begins with a byte other than 0, as the input of the unit. -/
theorem checked_input {b : Byte} {p : ByteString} (hb : b ≠ 0) (hl : p.length ≤ 33) :
    ∃ s : State, s.fits ∧
      b58dec Config.params (inputBytes s) = .ok (b :: p ++ cksum Config.params (b :: p)) := by
  obtain ⟨h1, h2⟩ := text_of (bs := p ++ cksum Config.params (b :: p)) hb (by
    rw [List.length_append, length_cksum]; omega)
  have hs : (b58enc Config.params (b :: (p ++ cksum Config.params (b :: p)))).length < 2 ^ 16 := by omega
  refine ⟨loaded (b58enc Config.params (b :: (p ++ cksum Config.params (b :: p)))), ?_, ?_⟩
  · have : (loaded (b58enc Config.params (b :: (p ++ cksum Config.params (b :: p))))).ilen.toNat
        = (b58enc Config.params (b :: (p ++ cksum Config.params (b :: p)))).length := by
      simpa [loaded] using hs
    show _ ≤ 128
    omega
  · rw [inputBytes_loaded hs, h1]
    rfl

theorem witness_B58cdecCompletes :
    ∃ (s : State) (p : ByteString), s.fits ∧
      b58dec Config.params (inputBytes s) = .ok (p ++ cksum Config.params p) := by
  obtain ⟨s, h⟩ := checked_input (b := 0x01) (p := []) (by decide) (by decide)
  exact ⟨s, _, h⟩

/-- Both lengths of the payload: without and with a last byte. -/
theorem witness_WifdecCompletes :
    (∃ s : State, s.fits ∧ b58dec Config.params (inputBytes s)
      = .ok (0x80 :: s1 ++ [] ++ cksum Config.params (0x80 :: s1 ++ []))) ∧
    ∃ s : State, s.fits ∧ b58dec Config.params (inputBytes s)
      = .ok (0xEF :: s1 ++ [0x02] ++ cksum Config.params (0xEF :: s1 ++ [0x02])) :=
  ⟨by simpa using checked_input (b := 0x80) (p := s1) (by decide) (by decide),
    by rw [List.cons_append]; exact checked_input (b := 0xEF) (p := s1 ++ [0x02]) (by decide) (by decide)⟩

/-- Case (a) on `05`; case (b) on the checked text of a payload of 32 bytes (D-W12). -/
theorem witness_InvalidFormatErrorExactly :
    ((inputBytes (loaded [0x05])).head? = some 0x05 ∧ (loaded [0x05]).fits) ∧
    ∃ s : State, s.fits ∧ ∃ p, b58cdec Config.params (inputBytes s) = .ok p ∧ p.length ≠ 33 ∧ p.length ≠ 34 := by
  refine ⟨by decide, ?_⟩
  obtain ⟨s, hf, h⟩ := checked_input (b := 0x80) (p := List.replicate 31 0) (by decide) (by decide)
  refine ⟨s, hf, 0x80 :: List.replicate 31 0, ?_, by decide, by decide⟩
  rw [b58cdec, h]
  have hk := length_cksum Config.params (0x80 :: List.replicate 31 0)
  have hl : (0x80 :: List.replicate 31 0 ++ cksum Config.params (0x80 :: List.replicate 31 0)).length - 4
      = (0x80 :: List.replicate 31 (0 : Byte)).length := by
    rw [List.length_append, hk]; rfl
  simp only [checkedPayload, Config.checksumLength]
  rw [hl, List.take_left, List.drop_left, if_neg, if_neg] <;> simp

theorem witness_PublicKeyLayout : (0 : Nat) < 2 ^ 256 ∧ 2 ^ 256 - 1 < 2 ^ 256 := by decide

theorem curve7_wf (a b : Nat) (ha : a < 7) (hb : b < 7) : Curve.wf ⟨7, a, b⟩ :=
  ⟨show Nat.Prime 7 by norm_num, show 7 % 4 = 3 by decide, show 7 < 2 ^ 256 by decide, ha, hb⟩

/-- The default curve and the toy curves. -/
theorem witness_RecoveredYParity : Config.curve.wf ∧ toyCurve.wf ∧ toyCurveA.wf :=
  ⟨curve_wf, curve7_wf 0 6 (by decide) (by decide), curve7_wf 1 0 (by decide) (by decide)⟩

/-- A non-zero square (`1` at `x = 0` with `B = 1`), no square (`6` at `x = 0` with `B = 6`), and zero (`x = 1`). -/
theorem witness_RecoveredYCases :
    (Curve.wf ⟨7, 0, 1⟩ ∧ (∃ z, curveRhs ⟨7, 0, 1⟩ 0 = z ^ 2 % 7) ∧ curveRhs ⟨7, 0, 1⟩ 0 ≠ 0) ∧
    (toyCurve.wf ∧ ¬ ∃ z, curveRhs toyCurve 0 = z ^ 2 % toyCurve.p) ∧ curveRhs toyCurve 1 = 0 := by
  refine ⟨⟨curve7_wf 0 1 (by decide) (by decide), ⟨1, by decide⟩, by decide⟩,
    ⟨curve7_wf 0 6 (by decide) (by decide), ?_⟩, by decide⟩
  rintro ⟨z, hz⟩
  have h : (6 : Nat) = z ^ 2 % 7 := hz
  rw [Nat.pow_mod] at h
  have : z % 7 < 7 := Nat.mod_lt _ (by decide)
  interval_cases z % 7 <;> simp at h

set_option maxRecDepth 100000 in
/-- Points of the curve: the base point, and on a toy curve the points with `Y = 1` and `Y = P − 1`. -/
theorem witness_PointRoundTrip :
    (gx < 2 ^ 256 ∧ gy < 2 ^ 256 ∧ 1 ≤ gy ∧ gy ≤ Config.curve.p - 1 ∧
      gy ^ 2 % Config.curve.p = (gx ^ 3 + Config.curve.a * gx ^ 2 + Config.curve.b) % Config.curve.p) ∧
    1 ^ 2 % 7 = (0 ^ 3 + 0 * 0 ^ 2 + 1) % 7 ∧ (7 - 1) ^ 2 % 7 = (0 ^ 3 + 0 * 0 ^ 2 + 1) % 7 := by decide

theorem witness_Pk2ptCompletes :
    (loaded (0x04 :: List.replicate 64 0xFF)).fits ∧
    inputBytes (loaded (0x04 :: List.replicate 64 0xFF)) = 0x04 :: List.replicate 64 0xFF ∧
    (loaded (0x02 :: List.replicate 32 0)).fits ∧
    inputBytes (loaded (0x02 :: List.replicate 32 0)) = 0x02 :: List.replicate 32 0 ∧
    inputBytes (loaded (0x03 :: List.replicate 32 0xFF)) = 0x03 :: List.replicate 32 0xFF :=
  ⟨by decide, inputBytes_loaded (by decide), by decide, inputBytes_loaded (by decide), inputBytes_loaded (by decide)⟩

/-- Whatever a command has left, the host can copy it. -/
theorem copied_exists (t : State) : ∃ u, CopiedOutput t u := by
  refine ⟨{ t with ibuf := memWrite [] 0 (outputBytes t), ilen := t.olen }, rfl, ?_⟩
  have h := memRead_memWrite (m := []) rfl 0 (outputBytes t)
  rw [length_outputBytes] at h
  exact h

set_option maxRecDepth 100000 in
/-- The base point in the point register. -/
theorem witness_CompressThenParse :
    ({ loaded [] with px := BitVec.ofNat 256 gx, py := BitVec.ofNat 256 gy } : State).fits ∧
    1 ≤ (BitVec.ofNat 256 gy).toNat ∧ (BitVec.ofNat 256 gy).toNat ≤ Config.params.curve.p - 1 ∧
    (BitVec.ofNat 256 gy).toNat ^ 2 % Config.params.curve.p
      = curveRhs Config.params.curve (BitVec.ofNat 256 gx).toNat := by decide

/-- For `WifencCompletes`, `WifRoundTrip` and `Sec2pkCompletes`: the secrets of all zeros and all ones. -/
theorem witness_secrets :
    (loaded (List.replicate 32 0)).ilen = 32 ∧ (loaded (List.replicate 32 0xFF)).ilen = 32 := by decide

end Sys2Proof.Tests
end

/-! PROOFS, scope (spec 00_scope R9, 20_memory R44): a command is a function of its operands. Two states with the
same operands run the same pseudocode to the same answer, and completing with one answer delivers the same values. -/

namespace Sys2Proof.Machine

/-! ### The completion step -/

theorem completeStep_of_decode_ok {s : State} {i : Instr} (h : decode s.cmdl = .ok i) :
    completeStep s = .next (runCommand (bodyOf i) s) := by
  rw [completeStep, commandWord, h]
  exact exec_eq i s

theorem completeStep_of_decode_error {s : State} {r : DecodeReject} (h : decode s.cmdl = .error r) :
    completeStep s = .next (raise .illegalCommand s) := by
  rw [completeStep, commandWord, h]
  rfl

/-! ### What a command reads -/

/-- `MemRead` sees no byte outside the range it reads (20_memory R31). -/
theorem memRead_congr {m₁ m₂ : Memory} {a n : Nat} (h : ∀ i, i < n → m₁.read (a + i) = m₂.read (a + i)) :
    memRead m₁ a n = memRead m₂ a n :=
  List.map_congr_left fun i hi => h i (List.mem_range.1 hi)

/-- The operands of a command other than its flag agree (30_encoding R47): `ILEN` and `IN`, and the point
register. -/
structure SameOperands (s₁ s₂ : State) : Prop where
  ilen : s₁.ilen = s₂.ilen
  input : inputBytes s₁ = inputBytes s₂
  px : s₁.px = s₂.px
  py : s₁.py = s₂.py

theorem SameOperands.fits_iff {s₁ s₂ : State} (h : SameOperands s₁ s₂) : s₁.fits ↔ s₂.fits := by
  rw [State.fits, State.fits, h.ilen]

theorem inputBytes_congr {s₁ s₂ : State} (hlen : s₁.ilen = s₂.ilen)
    (hbytes : ∀ i, i < s₁.ilen.toNat → s₁.ibuf.read i = s₂.ibuf.read i) : inputBytes s₁ = inputBytes s₂ := by
  rw [inputBytes, inputBytes, ← hlen]
  exact memRead_congr fun i hi => by simpa using hbytes i hi

/-- The pseudocode of a command reads its operands only. -/
theorem bodyOf_congr (i : Instr) {s₁ s₂ : State} (h : SameOperands s₁ s₂) : bodyOf i s₁ = bodyOf i s₂ := by
  have hpoint : pointOperand s₁ = pointOperand s₂ := by rw [pointOperand, pointOperand, h.px, h.py]
  cases i <;> simp only [bodyOf, h.input, hpoint]

/-! ### What a command delivers -/

/-- What a completed command delivers agrees: `STATUS`, `OLEN`, the output bytes and the point register. -/
structure SameDelivery (t₁ t₂ : State) : Prop where
  status : t₁.status = t₂.status
  olen : t₁.olen = t₂.olen
  output : outputBytes t₁ = outputBytes t₂
  px : t₁.px = t₂.px
  py : t₁.py = t₂.py

/-- Once a command has completed, the output is what `OBUF` lists, whatever stands outside the result. -/
theorem outputBytes_eq_memRead {s : State} {n : Nat} (h : s.obufRest = some n) :
    outputBytes s = memRead s.obuf 0 s.olen.toNat :=
  List.map_congr_left fun i hi => by rw [obufByte_some h (List.mem_range.1 hi), Nat.zero_add]

theorem succeed_sameDelivery (r : Result) {s₁ s₂ : State} (hpx : s₁.px = s₂.px) (hpy : s₁.py = s₂.py) :
    SameDelivery (succeed r s₁) (succeed r s₂) where
  status := rfl
  olen := rfl
  output := by
    rw [outputBytes_eq_memRead (succeed_obufRest r s₁), outputBytes_eq_memRead (succeed_obufRest r s₂)]
    rfl
  px := by rw [succeed_px, succeed_px, hpx]
  py := by rw [succeed_py, succeed_py, hpy]

theorem raise_sameDelivery (e : CmdError) {s₁ s₂ : State} (hpx : s₁.px = s₂.px) (hpy : s₁.py = s₂.py) :
    SameDelivery (raise e s₁) (raise e s₂) where
  status := rfl
  olen := rfl
  output := by
    rw [outputBytes_eq_memRead (raise_obufRest e s₁), outputBytes_eq_memRead (raise_obufRest e s₂)]
    rfl
  px := hpx
  py := hpy

/-- A body that answers the same on both states is run to the same delivery: the capacity test reads `ILEN`. -/
theorem runCommand_sameDelivery {body : State → Except CmdError Result} {s₁ s₂ : State}
    (h : SameOperands s₁ s₂) (hbody : body s₁ = body s₂) :
    SameDelivery (runCommand body s₁) (runCommand body s₂) := by
  rcases runCommand_cases body s₁ with ⟨hcap, heq⟩ | ⟨hfits, e, he, heq⟩ | ⟨hfits, r, hr, heq⟩
  · rw [heq, runCommand_capacity (h.ilen ▸ hcap)]
    exact raise_sameDelivery _ h.px h.py
  · rw [heq, runCommand_error (h.fits_iff.1 hfits) (hbody ▸ he)]
    exact raise_sameDelivery e h.px h.py
  · rw [heq, runCommand_ok (h.fits_iff.1 hfits) (hbody ▸ hr)]
    exact succeed_sameDelivery r h.px h.py

/-- The completion step from states with the same word and the same operands, the illegal word included. -/
theorem completeStep_sameDelivery {s₁ s₂ : State} (hword : s₁.cmdl = s₂.cmdl) (h : SameOperands s₁ s₂) :
    ∃ t₁ t₂, completeStep s₁ = .next t₁ ∧ completeStep s₂ = .next t₂ ∧ SameDelivery t₁ t₂ := by
  cases hd : decode s₁.cmdl with
  | error r =>
    exact ⟨_, _, completeStep_of_decode_error hd, completeStep_of_decode_error (hword ▸ hd),
      raise_sameDelivery _ h.px h.py⟩
  | ok i =>
    exact ⟨_, _, completeStep_of_decode_ok hd, completeStep_of_decode_ok (hword ▸ hd),
      runCommand_sameDelivery h (bodyOf_congr i h)⟩

/-- Settles O31: the completion step reads the operands only, so equal operands give an equal delivery. -/
theorem commandResultIsPure : Obligations.CommandResultIsPure := by
  intro s₁ s₂ hword hlen hbytes hpx hpy
  have hops : SameOperands s₁ s₂ := ⟨hlen, inputBytes_congr hlen hbytes, hpx, hpy⟩
  obtain ⟨t₁, t₂, h₁, h₂, hsame⟩ := completeStep_sameDelivery hword hops
  exact ⟨t₁, t₂, h₁, h₂, hsame.status, hsame.olen, hsame.output, hsame.px, hsame.py⟩

end Sys2Proof.Machine

/-! PROOFS, state (spec 10_state R12 to R18, R23, 20_memory R30, 40_base58check R66): the reset state meets the
invariant and every step keeps it. A step that completes a command is the one that has to be shown to fit: the longest
output is the checked encoding of a full input buffer, which `OBUF` just holds. -/

namespace Sys2Proof.Machine

/-! ### The lengths of the pure functions' results -/

/-- A number below `base^k` has at most `k` digits. -/
theorem length_digitsLE_le {base n k : Nat} (hb : 2 ≤ base) (h : n < base ^ k) : (digitsLE base n).length ≤ k := by
  rw [digitsLE_eq base hb]
  exact (Nat.digits_length_le_iff hb n).2 h

theorem length_nat2beMin_le {n k : Nat} (h : n < 256 ^ k) : (nat2beMin n).length ≤ k := by
  simpa [nat2beMin] using length_digitsLE_le (by norm_num) h

/-- The value of a digit string is below the power of the base by its length. -/
theorem digitsValue_lt {base : Nat} (hb : 2 ≤ base) {ds : List Nat} (h : ∀ d ∈ ds, d < base) :
    digitsValue base ds < base ^ ds.length := by
  have hv := digitsValue_reverse_eq base ds.reverse
  rw [List.reverse_reverse] at hv
  rw [hv, ← List.length_reverse]
  exact Nat.ofDigits_lt_base_pow_length hb (by simpa using h)

theorem leadingCount_le_length (b : Byte) (s : ByteString) : leadingCount b s ≤ s.length :=
  (List.takeWhile_sublist _).length_le

/-- Leading zero bytes carry no value: only the bytes after them bound it. -/
theorem be2nat_lt_of_lz (s : ByteString) : be2nat s < 256 ^ (s.length - lz s) := by
  obtain ⟨u, hs, -⟩ := eq_replicate_append 0 s
  have hlen : s.length - lz s = u.length := by
    have := congrArg List.length hs
    rw [List.length_append, List.length_replicate] at this
    rw [lz]
    omega
  have hval : be2nat s = be2nat u := (congrArg be2nat hs).trans (be2nat_zeros _ u)
  rw [hlen, hval]
  exact be2nat_lt u

/-- Encoding at most doubles the length (40_base58check R66): `256 < 58^2`. -/
theorem length_b58enc_le (c : Params) (s : ByteString) : (b58enc c s).length ≤ 2 * s.length := by
  have hz : lz s ≤ s.length := leadingCount_le_length 0 s
  have hpow : 256 ^ (s.length - lz s) ≤ 58 ^ (2 * (s.length - lz s)) := by
    rw [pow_mul]
    exact Nat.pow_le_pow_left (by norm_num) _
  have hdigits := length_digitsLE_le (base := 58) (by norm_num) ((be2nat_lt_of_lz s).trans_le hpow)
  simp only [b58enc_eq_map, List.length_map, List.length_append, List.length_replicate, List.length_reverse]
  omega

theorem length_b58cenc_le (c : Params) (p : ByteString) : (b58cenc c p).length ≤ 2 * (p.length + 4) := by
  have := length_b58enc_le c (p ++ cksum c p)
  rwa [List.length_append, length_cksum] at this

/-- Zero symbols at the front of a text are digits 0 (40_base58check R63). -/
theorem charDigits_zeros {c : Params} (hc : alphabetWf c.alphabet) (z : Nat) (u : ByteString) :
    charDigits c (List.replicate z (zeroSymbol c) ++ u) = (charDigits c u).map (List.replicate z 0 ++ ·) := by
  have hzero : symbolIndex c (zeroSymbol c) = some 0 := symbolIndex_symbolOf hc (by norm_num)
  induction z with
  | zero => simp
  | succ z ih =>
    rw [List.replicate_succ, List.cons_append, charDigits, hzero, ih]
    cases charDigits c u <;> rfl

/-- Leading zero symbols carry no value either. -/
theorem digitsValue_lt_of_charDigits {c : Params} (hc : alphabetWf c.alphabet) {t : ByteString} {ds : List Nat}
    (h : charDigits c t = some ds) :
    digitsValue 58 ds < 58 ^ (t.length - leadingCount (zeroSymbol c) t) := by
  obtain ⟨u, ht, -⟩ := eq_replicate_append (zeroSymbol c) t
  generalize leadingCount (zeroSymbol c) t = z at ht ⊢
  subst ht
  rw [charDigits_zeros hc, Option.map_eq_some_iff] at h
  obtain ⟨es, hes, rfl⟩ := h
  obtain ⟨hu, hlt⟩ := eq_map_of_charDigits hc hes
  have hlen : (List.replicate z (zeroSymbol c) ++ u).length - z = es.length := by
    rw [hu]
    simp
  rw [digitsValue_zeros, hlen]
  exact digitsValue_lt (by norm_num) hlt

/-- Decoding never lengthens (40_base58check R66): `58 < 256`. -/
theorem length_le_of_b58dec {c : Params} (hc : alphabetWf c.alphabet) {t s : ByteString}
    (h : b58dec c t = .ok s) : s.length ≤ t.length := by
  unfold b58dec at h
  split at h
  · cases h
  · rename_i ds hds
    cases h
    have hz := leadingCount_le_length (zeroSymbol c) t
    have hvalue := (digitsValue_lt_of_charDigits hc hds).trans_le (Nat.pow_le_pow_left (by norm_num : 58 ≤ 256) _)
    have hbytes : (nat2beMin (digitsValue Config.radix ds)).length ≤ _ := length_nat2beMin_le hvalue
    rw [List.length_append, List.length_replicate]
    omega

/-- The payload is what stands before the checksum. -/
theorem length_le_of_checkedPayload {c : Params} {d p : ByteString} (h : checkedPayload c d = .ok p) :
    p.length ≤ d.length := by
  unfold checkedPayload at h
  split at h
  · cases h
  · dsimp only at h
    split at h <;> cases h
    exact List.length_take_le' ..

theorem length_le_of_b58cdec {c : Params} (hc : alphabetWf c.alphabet) {t p : ByteString}
    (h : b58cdec c t = .ok p) : p.length ≤ t.length := by
  unfold b58cdec at h
  split at h
  · cases h
  · rename_i d hd
    exact (length_le_of_checkedPayload h).trans (length_le_of_b58dec hc hd)

/-- Public-key bytes are 33 or 65 (41_keypoint R82). -/
theorem length_pt2pk (x y : Nat) (c : Bool) : (pt2pk x y c).length = if c then 33 else 65 := by
  cases c <;> simp [pt2pk, Config.fieldLength]

theorem length_pt2pk_le (x y : Nat) (c : Bool) : (pt2pk x y c).length ≤ 65 := by
  rw [length_pt2pk]
  split <;> omega

/-- An address is the checked encoding of 21 bytes (42_derivation R97). -/
theorem length_addressOf_le (c : Params) (b : ByteString) : (addressOf c b).length ≤ 50 := by
  simpa [addressOf] using length_b58cenc_le c (Config.addressVersion :: hash160 c b)

/-- A WIF string is the checked encoding of 33 or 34 bytes (42_derivation R98). -/
theorem length_le_of_wifOf {c : Params} {secret w : ByteString} {compressed : Bool}
    (h : wifOf c secret compressed = .ok w) : w.length ≤ 76 := by
  unfold wifOf at h
  split at h
  · cases h
  · rename_i hlen
    have hlen : secret.length = 32 := not_not.1 hlen
    split at h <;> cases h
    · simpa [hlen] using length_b58cenc_le c ([Config.wifVersion] ++ secret ++ [Config.wifCompressed])
    · have := length_b58cenc_le c ([Config.wifVersion] ++ secret)
      simp only [List.length_append, List.length_singleton, hlen] at this
      omega

/-- The secret in a WIF string is 32 bytes (42_derivation R99). -/
theorem length_of_secretOfPayload {p secret : ByteString} (h : secretOfPayload p = .ok secret) :
    secret.length = 32 := by
  unfold secretOfPayload at h
  split at h
  · cases h
    simp [*]
  · split at h <;> cases h
    simp [*]

theorem length_of_secretOfWif {c : Params} {t secret : ByteString} (h : secretOfWif c t = .ok secret) :
    secret.length = 32 := by
  unfold secretOfWif at h
  split at h
  · cases h
  · exact length_of_secretOfPayload h

/-! ### What a command answers -/

theorem exists_of_map_eq_ok {ε α β : Type} {f : α → β} {x : Except ε α} {b : β} (h : x.map f = .ok b) :
    ∃ a, x = .ok a ∧ f a = b := by
  cases x with
  | error e => cases h
  | ok a => exact ⟨a, rfl, Except.ok.inj h⟩

/-- What a successful command answers, said once (30_encoding R47): a byte string; for `RECY` a Y coordinate; for
`PK2PT` and `SEC2PK` a point with its output. -/
theorem bodyOf_ok_cases {i : Instr} {s : State} {r : Result} (h : bodyOf i s = .ok r) :
    (∃ out, r = bytesResult out) ∨ (∃ c y, i = .recy c ∧ r = yResult y) ∨
    ∃ xy out, (i = .pk2pt ∨ ∃ c, i = .sec2pk c) ∧ r = pointResult xy out := by
  cases i with
  | b58enc | b58cenc | pt2pk | hash160 | addr => cases h; exact .inl ⟨_, rfl⟩
  | b58dec | b58cdec | wifenc | wifdec =>
    obtain ⟨out, -, rfl⟩ := exists_of_map_eq_ok h
    exact .inl ⟨out, rfl⟩
  | recy c => cases h; exact .inr (.inl ⟨c, _, rfl, rfl⟩)
  | pk2pt =>
    obtain ⟨xy, -, rfl⟩ := exists_of_map_eq_ok h
    exact .inr (.inr ⟨xy, [], .inl rfl, rfl⟩)
  | sec2pk c =>
    obtain ⟨xy, -, rfl⟩ := exists_of_map_eq_ok h
    exact .inr (.inr ⟨xy, _, .inr ⟨c, rfl⟩, rfl⟩)

theorem length_inputBytes (s : State) : (inputBytes s).length = s.ilen.toNat := length_memRead ..

/-- Every output fits `OBUF` if the input fits `IBUF` (40_base58check R66): the longest is that of `B58CENC`, at most
`2 * (IBUF_CAP + 4) = OBUF_CAP`. -/
theorem length_out_le {i : Instr} {s : State} {r : Result} (hfits : s.fits) (h : bodyOf i s = .ok r) :
    r.out.length ≤ Config.params.obufCap := by
  have hobuf : Config.params.obufCap = 264 := rfl
  have halpha : alphabetWf Config.params.alphabet := params_wf.alphabet
  have hin : (inputBytes s).length ≤ 128 := by rw [length_inputBytes]; exact hfits
  rw [hobuf]
  cases i with
  | b58enc => cases h; exact (length_b58enc_le ..).trans (by omega)
  | b58cenc => cases h; exact (length_b58cenc_le ..).trans (by omega)
  | b58dec =>
    obtain ⟨out, hout, rfl⟩ := exists_of_map_eq_ok h
    exact (length_le_of_b58dec halpha hout).trans (by omega)
  | b58cdec =>
    obtain ⟨out, hout, rfl⟩ := exists_of_map_eq_ok h
    exact (length_le_of_b58cdec halpha hout).trans (by omega)
  | pt2pk c => cases h; exact (length_pt2pk_le ..).trans (by omega)
  | sec2pk c =>
    obtain ⟨xy, -, rfl⟩ := exists_of_map_eq_ok h
    exact (length_pt2pk_le ..).trans (by omega)
  | recy c => cases h; exact Nat.zero_le _
  | pk2pt =>
    obtain ⟨xy, -, rfl⟩ := exists_of_map_eq_ok h
    exact Nat.zero_le _
  | hash160 => cases h; exact (length_hash160 ..).trans_le (by omega)
  | addr => cases h; exact (length_addressOf_le ..).trans (by omega)
  | wifenc c =>
    obtain ⟨out, hout, rfl⟩ := exists_of_map_eq_ok h
    exact (length_le_of_wifOf hout).trans (by omega)
  | wifdec =>
    obtain ⟨out, hout, rfl⟩ := exists_of_map_eq_ok h
    exact (length_of_secretOfWif hout).trans_le (by omega)

/-! ### Every `STATUS` value that a step writes is legal (10_state R18) -/

theorem statusLegal_zero : StatusLegal 0 where
  reserved := rfl
  notBoth := by decide
  err_le := by decide
  err_busy := by decide

theorem statusLegal_issued : StatusLegal statusIssued where
  reserved := rfl
  notBoth := by simp
  err_le := by simp
  err_busy := by simp

theorem statusLegal_completed : StatusLegal statusCompleted where
  reserved := rfl
  notBoth := by simp
  err_le := by simp
  err_busy := by simp

theorem statusLegal_failed (e : CmdError) : StatusLegal (statusFailed e) where
  reserved := by cases e <;> rfl
  notBoth := by simp
  err_le := by cases e <;> decide
  err_busy := by simp

/-! ### The invariant -/

/-- The invariant speaks of both buffers, `OLEN`, `STATUS` and whether a command has completed, of nothing else. -/
theorem State.Inv.congr {s t : State} (h : s.Inv) (hibuf : t.ibuf = s.ibuf) (hobuf : t.obuf = s.obuf)
    (holen : t.olen = s.olen) (hstatus : t.status = s.status) (hrest : t.obufRest = s.obufRest) : t.Inv where
  ibuf_wf := by rw [hibuf]; exact h.ibuf_wf
  ibuf_within := by rw [hibuf]; exact h.ibuf_within
  obuf_wf := by rw [hobuf]; exact h.obuf_wf
  obuf_within := by rw [hobuf, holen]; exact h.obuf_within
  olen_le := by rw [holen]; exact h.olen_le
  status := by rw [hstatus]; exact h.status
  fresh := by rw [hrest, holen]; exact h.fresh

theorem inv_withInputs {s : State} (h : s.Inv) (l : List Input) : State.Inv { s with inputs := l } :=
  h.congr rfl rfl rfl rfl rfl

theorem inv_answer {s : State} (h : s.Inv) (v : Word256) : (answer v s).Inv := h.congr rfl rfl rfl rfl rfl

theorem inv_drawByte {s : State} (h : s.Inv) : (drawByte s).2.Inv := h.congr rfl rfl rfl rfl rfl

theorem inv_resetEvent (s : State) : (resetEvent s).Inv where
  ibuf_wf := rfl
  ibuf_within := rfl
  obuf_wf := rfl
  obuf_within := rfl
  olen_le := Nat.zero_le _
  status := statusLegal_zero
  fresh := fun _ => rfl

/-- `OUT <- s` lists exactly the bytes of the result and sets its length (20_memory R34). -/
theorem inv_writeOut {s : State} (h : s.Inv) {out : ByteString} (hlen : out.length ≤ Config.params.obufCap) :
    (writeOut s out).Inv := by
  have hcap : Config.params.obufCap = 264 := rfl
  have holen : (writeOut s out).olen.toNat = out.length := toNat_olen_writeOut (by omega)
  exact { h with
    obuf_wf := wf_memWrite Memory.wf_nil 0 out
    obuf_within := by
      rw [holen, writeOut_obuf]
      exact within_memWrite rfl 0 out (Nat.zero_add _).le
    olen_le := holen.trans_le hlen
    fresh := by simp }

theorem inv_succeed {s : State} (h : s.Inv) {r : Result} (hlen : r.out.length ≤ Config.params.obufCap) :
    (succeed r s).Inv :=
  { inv_writeOut h hlen with status := statusLegal_completed }

theorem inv_raise {s : State} (h : s.Inv) (e : CmdError) : (raise e s).Inv :=
  { inv_writeOut h (out := []) (Nat.zero_le _) with status := statusLegal_failed e }

theorem inv_runCommand {s : State} (h : s.Inv) (i : Instr) : (runCommand (bodyOf i) s).Inv := by
  rcases runCommand_cases (bodyOf i) s with ⟨-, heq⟩ | ⟨-, e, -, heq⟩ | ⟨hfits, r, hr, heq⟩
  · rw [heq]; exact inv_raise h _
  · rw [heq]; exact inv_raise h e
  · rw [heq]; exact inv_succeed h (length_out_le hfits hr)

theorem inv_issue {s : State} (h : s.Inv) (w : Word16) : (issue w s).Inv :=
  { h with status := statusLegal_issued }

theorem inv_writeRegister {s : State} (h : s.Inv) (q : HostReg) (v : Nat) : (writeRegister q v s).Inv := by
  cases q with
  | cmd => exact inv_issue h _
  | status | olen => exact h
  | ilen | px | py => exact h.congr rfl rfl rfl rfl rfl

theorem inv_writeIbuf {s : State} (h : s.Inv) {i : Nat} (hi : i < Config.params.ibufCap) (b : Byte) :
    State.Inv { s with ibuf := s.ibuf.write i b } :=
  { h with
    ibuf_wf := Memory.wf_write h.ibuf_wf i b
    ibuf_within := Memory.within_write h.ibuf_within hi b }

theorem inv_hostAccess {a : HostAccess} {s t : State} (h : s.Inv) (ht : hostAccess a s = .next t) : t.Inv := by
  rcases hostAccess_cases ht with ⟨_, q, -, -, -, rfl⟩ | ⟨_, v, q, -, -, -, -, rfl⟩ | ⟨i, b, -, -, hi, rfl⟩ |
    ⟨_, -, -, -, rfl⟩ | ⟨_, -, -, -, -, rfl⟩ | ⟨_, -, -, -, -, rfl⟩
  · exact inv_answer h _
  · exact inv_writeRegister h q v
  · exact inv_writeIbuf h hi b
  · exact inv_answer h _
  · exact inv_answer h _
  · exact inv_answer (inv_drawByte h) _

/-- Settles O3, by what a step can do: a completion fits `OBUF`, and no other step writes more than it may. -/
theorem stepKeepsInvariant : Obligations.StepKeepsInvariant := by
  intro s t h ht
  rcases step_cases ht with ⟨-, i, -, rfl⟩ | ⟨-, _, -, rfl⟩ | ⟨a, rest, -, hacc⟩ | ⟨rest, -, rfl⟩ | ⟨-, rfl⟩
  · exact inv_runCommand h i
  · exact inv_raise h _
  · exact inv_hostAccess (inv_withInputs h rest) hacc
  · exact inv_resetEvent _
  · exact h

/-! ### What a command writes -/

theorem keepsInputs_succeed (r : Result) (s : State) : KeepsInputs s (succeed r s) where
  ibuf := succeed_ibuf r s
  ibuf_read := fun _ => rfl
  ilen := succeed_ilen r s
  cmdl := succeed_cmdl r s
  hostData := succeed_hostData r s
  inputs := succeed_inputs r s

/-- Only `PK2PT` and `SEC2PK` answer an X coordinate (10_state R12). -/
theorem px_of_bodyOf {i : Instr} {s : State} {r : Result} (h : bodyOf i s = .ok r) (hpk : i ≠ .pk2pt)
    (hsec : ∀ c, i ≠ .sec2pk c) : r.px = none := by
  rcases bodyOf_ok_cases h with ⟨out, rfl⟩ | ⟨c, y, -, rfl⟩ | ⟨xy, out, hi | ⟨c, hi⟩, rfl⟩
  · exact bytesResult_px out
  · exact yResult_px y
  · exact absurd hi hpk
  · exact absurd hi (hsec c)

/-- Only `PK2PT`, `SEC2PK` and `RECY` answer a Y coordinate (10_state R12). -/
theorem py_of_bodyOf {i : Instr} {s : State} {r : Result} (h : bodyOf i s = .ok r) (hpk : i ≠ .pk2pt)
    (hsec : ∀ c, i ≠ .sec2pk c) (hrecy : ∀ c, i ≠ .recy c) : r.py = none := by
  rcases bodyOf_ok_cases h with ⟨out, rfl⟩ | ⟨c, y, hi, -⟩ | ⟨xy, out, hi | ⟨c, hi⟩, rfl⟩
  · exact bytesResult_py out
  · exact absurd hi (hrecy c)
  · exact absurd hi hpk
  · exact absurd hi (hsec c)

/-- A command ends in an error completion or in a success with its own answer. -/
theorem runCommand_raise_or_succeed (body : State → Except CmdError Result) (s : State) :
    (∃ e, runCommand body s = raise e s) ∨ ∃ r, body s = .ok r ∧ runCommand body s = succeed r s := by
  rcases runCommand_cases body s with ⟨-, heq⟩ | ⟨-, e, -, heq⟩ | ⟨-, r, hr, heq⟩
  · exact .inl ⟨_, heq⟩
  · exact .inl ⟨e, heq⟩
  · exact .inr ⟨r, hr, heq⟩

/-- Settles O30: an error completion keeps everything, and a success writes the coordinates the command answers. -/
theorem pointRegisterWriters : Obligations.PointRegisterWriters := by
  intro i s
  refine ⟨_, exec_eq i s, ?_⟩
  rcases runCommand_raise_or_succeed (bodyOf i) s with ⟨e, heq⟩ | ⟨r, hr, heq⟩
  · rw [heq]
    have hfail := failsWith_raise e s
    exact ⟨hfail.keeps, fun _ => hfail.px, fun _ => hfail.py, fun _ => ⟨hfail.px, hfail.py, hfail.olen⟩⟩
  · rw [heq]
    refine ⟨keepsInputs_succeed r s, fun ⟨hpk, hsec⟩ => ?_, fun ⟨hpk, hsec, hrecy⟩ => ?_, fun herr => ?_⟩
    · rw [succeed_px, px_of_bodyOf hr hpk hsec, Option.getD_none]
    · rw [succeed_py, py_of_bodyOf hr hpk hsec hrecy, Option.getD_none]
    · exact absurd (by rw [succeed_status, statusErr_completed]) herr

/-! ### Reset -/

/-- Settles O1: the reset state's items are these values, and an empty list reads as zero bytes. -/
theorem resetValues : Obligations.ResetValues := by
  have hbuf : ∀ i, Memory.read [] i = 0x00 := Memory.read_nil
  exact ⟨hbuf, hbuf, rfl, rfl, rfl, rfl, rfl, by decide, by decide, by decide, rfl⟩

/-- Settles O2: `State.reset` is what the event `Reset` leaves of itself. -/
theorem resetMeetsInvariant : Obligations.ResetMeetsInvariant :=
  inv_resetEvent State.reset

end Sys2Proof.Machine

/-! PROOFS, memory (spec 20_memory R34, R36, R37, R43, 10_state R18, R19): what each access of the host answers, one
equation a case, with the frame of a read; the fields of `STATUS` as a read returns them; and what stands in `OBUF`
outside the result. -/

namespace Sys2Proof.Machine

/-! ### What a host read leaves alone (20_memory R37) -/

theorem sameUnit_answer (v : Word256) (s : State) : SameUnit s (answer v s) := rfl

theorem sameUnit_answer_withInputs (v : Word256) (s : State) (l : List Input) :
    SameUnit s (answer v { s with inputs := l }) := rfl

/-- The registers are items of the unit, so what a read returns does not depend on what is to come. -/
theorem registerValue_withInputs (q : HostReg) (s : State) (l : List Input) :
    registerValue q { s with inputs := l } = registerValue q s := by
  cases q <;> rfl

/-! ### The register accesses (20_memory R43) -/

/-- A register that may be read now is read, and nothing of the unit changes. -/
theorem hostAccess_read {r : Nat} {q : HostReg} {s : State} (hq : HostReg.ofNumber r = some q)
    (hr : s.busy = true → readableBusy q = true) :
    hostAccess (.read r) s = .next (answer (registerValue q s) s) := by
  have hallowed : ¬(s.busy = true ∧ readableBusy q = false) := fun ⟨hb, hn⟩ => by simp [hr hb] at hn
  simp only [hostAccess, hostRead, hq, if_neg hallowed]

theorem hostAccess_read_idle {r : Nat} {q : HostReg} {s : State} (hq : HostReg.ofNumber r = some q)
    (hb : s.busy = false) : hostAccess (.read r) s = .next (answer (registerValue q s) s) :=
  hostAccess_read hq fun hbusy => absurd hbusy (by simp [hb])

theorem hostAccess_write {r v : Nat} {q : HostReg} {s : State} (hq : HostReg.ofNumber r = some q)
    (hb : s.busy = false) (hv : q.writable = true → v < 2 ^ q.width) :
    hostAccess (.write r v) s = .next (writeRegister q v s) := by
  have hfits : ¬(q.writable = true ∧ 2 ^ q.width ≤ v) := fun ⟨hw, hle⟩ => (hv hw).not_ge hle
  simp only [hostAccess, hostWrite, hq, hb, Bool.false_eq_true, if_false, if_neg hfits]

/-- A value that does not fit a register that stores it is refused (log entry 9). -/
theorem hostAccess_write_tooWide {r v : Nat} {q : HostReg} {s : State} (hq : HostReg.ofNumber r = some q)
    (hb : s.busy = false) (hw : q.writable = true) (hv : 2 ^ q.width ≤ v) :
    hostAccess (.write r v) s = .refused .valueTooWide := by
  simp only [hostAccess, hostWrite, hq, hb, Bool.false_eq_true, if_false, if_pos (And.intro hw hv)]

/-- A missing register is refused before anything else is looked at, so also in the busy window. -/
theorem hostAccess_noSuchRegister {r : Nat} (hr : 6 ≤ r) (v : Nat) (s : State) :
    hostAccess (.read r) s = .refused .noSuchRegister ∧ hostAccess (.write r v) s = .refused .noSuchRegister := by
  have hnone := (ofNumber_eq_none r).2 hr
  constructor
  · simp only [hostAccess, hostRead, hnone]
  · simp only [hostAccess, hostWrite, hnone]

/-- A read of a register that is readable in the busy window, as the next input, whether a command runs or not. -/
theorem step_read_anyTime {s : State} {early : Bool} {r : Nat} {q : HostReg} {rest : List Input}
    (h : s.busy = true → early = true) (hi : s.inputs = ⟨early, .host (.read r)⟩ :: rest)
    (hq : HostReg.ofNumber r = some q) (hr : readableBusy q = true) :
    step s = .next (answer (registerValue q s) { s with inputs := rest }) := by
  rw [step_outside h hi, performAction, hostAccess_read hq fun _ => hr, registerValue_withInputs]

/-! ### The buffer accesses (20_memory R36, R43) -/

theorem hostAccess_writeIbuf {s : State} {i : Nat} (hb : s.busy = false) (hi : i < Config.params.ibufCap) (b : Byte) :
    hostAccess (.writeIbuf i b) s = .next { s with ibuf := s.ibuf.write i b } := by
  simp only [hostAccess, hostWriteIbuf, hb, Bool.false_eq_true, if_false, if_neg (Nat.not_le.2 hi)]

theorem hostAccess_readIbuf {s : State} {i : Nat} (hb : s.busy = false) (hi : i < Config.params.ibufCap) :
    hostAccess (.readIbuf i) s = .next (answer ((s.ibuf.read i).setWidth 256) s) := by
  simp only [hostAccess, hostReadIbuf, hb, Bool.false_eq_true, if_false, if_neg (Nat.not_le.2 hi)]

theorem hostAccess_ibuf_outside {s : State} {i : Nat} (hb : s.busy = false) (hi : Config.params.ibufCap ≤ i)
    (b : Byte) :
    hostAccess (.writeIbuf i b) s = .refused .indexOutsideBuffer ∧
      hostAccess (.readIbuf i) s = .refused .indexOutsideBuffer := by
  constructor
  · simp only [hostAccess, hostWriteIbuf, hb, Bool.false_eq_true, if_false, if_pos hi]
  · simp only [hostAccess, hostReadIbuf, hb, Bool.false_eq_true, if_false, if_pos hi]

theorem hostAccess_readObuf_inside {s : State} {i : Nat} (hb : s.busy = false) (hi : i < Config.params.obufCap)
    (ho : i < s.olen.toNat) :
    hostAccess (.readObuf i) s = .next (answer ((obufByte s i).setWidth 256) s) := by
  simp only [hostAccess, hostReadObuf, hb, Bool.false_eq_true, if_false, if_neg (Nat.not_le.2 hi), if_pos ho]

/-- Beyond the result the byte is a fresh draw (log entry 8). -/
theorem hostAccess_readObuf_beyond {s : State} {i : Nat} (hb : s.busy = false) (hi : i < Config.params.obufCap)
    (ho : s.olen.toNat ≤ i) :
    hostAccess (.readObuf i) s = .next (answer ((drawByte s).1.setWidth 256) (drawByte s).2) := by
  simp only [hostAccess, hostReadObuf, hb, Bool.false_eq_true, if_false, if_neg (Nat.not_le.2 hi),
    if_neg (Nat.not_lt.2 ho)]

theorem hostAccess_readObuf_outside {s : State} {i : Nat} (hb : s.busy = false) (hi : Config.params.obufCap ≤ i) :
    hostAccess (.readObuf i) s = .refused .indexOutsideBuffer := by
  simp only [hostAccess, hostReadObuf, hb, Bool.false_eq_true, if_false, if_pos hi]

/-! ### Values that are read and written -/

/-- A written value in range is what the register holds. -/
theorem toNat_ofNat_of_lt {w v : Nat} (hv : v < 2 ^ w) : (BitVec.ofNat w v).toNat = v :=
  (BitVec.toNat_ofNat ..).trans (Nat.mod_eq_of_lt hv)

/-- Widening to the 256 bits the host has read keeps the value (log entry 11). -/
theorem toNat_hostData_answer {w : Nat} (hw : w ≤ 256) (x : BitVec w) (s : State) :
    (answer (x.setWidth 256) s).hostData.toNat = x.toNat := by
  rw [answer_hostData, BitVec.toNat_setWidth_of_le hw]

/-! ### `STATUS` as it is read (10_state R18) -/

theorem toNat_statusRead (w : Word16) : (statusRead w).toNat = w.toNat &&& 0xF3 := BitVec.toNat_and ..

/-- A field of a masked number is the field masked with the field of the mask. -/
theorem field_and (x m k n : Nat) : (x &&& m) / 2 ^ k % 2 ^ n = (x / 2 ^ k % 2 ^ n) &&& (m / 2 ^ k % 2 ^ n) := by
  rw [Nat.and_div_two_pow, Nat.and_mod_two_pow]

/-- A field that the mask covers with ones is kept. -/
theorem field_and_of_ones {m k n : Nat} (hm : m / 2 ^ k % 2 ^ n = 2 ^ n - 1) (x : Nat) :
    (x &&& m) / 2 ^ k % 2 ^ n = x / 2 ^ k % 2 ^ n := by
  rw [field_and, hm, Nat.and_two_pow_sub_one_eq_mod, Nat.mod_mod]

theorem statusRead_busy (w : Word16) : (statusRead w).toNat % 2 = (statusBusy w).toNat := by
  have hmask := field_and_of_ones (m := 0xF3) (k := 0) (n := 1) rfl w.toNat
  rw [toNat_statusRead, statusBusy, BitVec.getLsbD, Nat.toNat_testBit]
  simpa using hmask

theorem statusRead_done (w : Word16) : (statusRead w).toNat / 2 % 2 = (statusDone w).toNat := by
  rw [toNat_statusRead, statusDone, BitVec.getLsbD, Nat.toNat_testBit]
  exact field_and_of_ones (m := 0xF3) (k := 1) (n := 1) rfl w.toNat

/-- The reserved bits 3:2 read as 0. -/
theorem statusRead_reserved (w : Word16) : (statusRead w).toNat / 2 ^ 2 % 4 = 0 := by
  rw [toNat_statusRead]
  exact (field_and w.toNat 0xF3 2 2).trans (Nat.and_zero _)

theorem statusRead_err (w : Word16) : (statusRead w).toNat / 2 ^ 4 % 16 = statusErr w := by
  rw [toNat_statusRead, statusErr]
  exact field_and_of_ones (m := 0xF3) (k := 4) (n := 4) rfl w.toNat

/-- The reserved bits 15:8 read as 0. -/
theorem statusRead_lt (w : Word16) : (statusRead w).toNat < 2 ^ 8 := by
  rw [toNat_statusRead]
  exact Nat.and_le_right.trans_lt (by norm_num)

/-! ### What stands in `OBUF` outside the result (20_memory R34, log entry 7) -/

theorem obufByte_outside {s : State} {n i : Nat} (h : s.obufRest = some n) (hi : s.olen.toNat ≤ i) :
    obufByte s i = Config.scratchByte n i := by
  simp only [obufByte, h, if_neg (Nat.not_lt.2 hi)]

/-- `t` has used one draw more than `s`, and what stands outside its result is of that draw. -/
structure DrawsRest (s t : State) : Prop where
  draws : t.draws = s.draws + 1
  obufRest : t.obufRest = some s.draws

theorem DrawsRest.obufByte_outside {s t : State} (h : DrawsRest s t) {j : Nat} (hj : t.olen.toNat ≤ j) :
    obufByte t j = Config.scratchByte s.draws j :=
  Machine.obufByte_outside h.obufRest hj

theorem drawsRest_succeed (r : Result) (s : State) : DrawsRest s (succeed r s) :=
  ⟨succeed_draws r s, succeed_obufRest r s⟩

theorem drawsRest_raise (e : CmdError) (s : State) : DrawsRest s (raise e s) :=
  ⟨raise_draws e s, raise_obufRest e s⟩

theorem drawsRest_runCommand (body : State → Except CmdError Result) (s : State) :
    DrawsRest s (runCommand body s) := by
  rcases runCommand_raise_or_succeed body s with ⟨e, heq⟩ | ⟨r, -, heq⟩
  · rw [heq]; exact drawsRest_raise e s
  · rw [heq]; exact drawsRest_succeed r s

theorem drawsRest_completeStep (s : State) : ∃ t, completeStep s = .next t ∧ DrawsRest s t := by
  cases hd : decode s.cmdl with
  | error r => exact ⟨_, completeStep_of_decode_error hd, drawsRest_raise _ s⟩
  | ok i => exact ⟨_, completeStep_of_decode_ok hd, drawsRest_runCommand _ s⟩

/-! ### The obligations -/

/-- Settles O15: the read is allowed in the busy window too, and the mask of `STATUS` keeps its fields. -/
theorem statusReadAnyTime : Obligations.StatusReadAnyTime := by
  intro s early rest h
  refine ⟨fun hi => ?_, fun hi => ?_⟩
  · have hdata := toNat_hostData_answer (by norm_num) (statusRead s.status) { s with inputs := rest }
    refine ⟨_, step_read_anyTime h hi (q := .status) rfl rfl, sameUnit_answer_withInputs _ s rest, rfl, ?_⟩
    rw [registerValue, hdata]
    exact ⟨statusRead_busy _, statusRead_done _, statusRead_reserved _, statusRead_err _, statusRead_lt _⟩
  · exact ⟨_, step_read_anyTime h hi (q := .cmd) rfl rfl, sameUnit_answer_withInputs _ s rest, rfl, rfl⟩

/-- Settles O17, by what a read of a canonical buffer returns after a write. -/
theorem inputBufferAccess : Obligations.InputBufferAccess := by
  intro s i b hinv hb hi
  exact ⟨⟨_, hostAccess_writeIbuf hb hi b, Memory.wf_write hinv.ibuf_wf i b,
      Memory.read_write s.ibuf hinv.ibuf_wf i b, rfl⟩,
    ⟨_, hostAccess_readIbuf hb hi, sameUnit_answer _ s, toNat_hostData_answer (by norm_num) _ s⟩⟩

/-- Settles O16: one equation for the reads and one for the writes, at each register. -/
theorem registerAccessWhenIdle : Obligations.RegisterAccessWhenIdle := by
  intro s hb
  refine ⟨?_, ?_, ?_, ?_, fun v hv => ?_, fun v hv => ?_, fun v hv => ?_, fun v => ⟨?_, ?_⟩⟩
  · exact ⟨_, hostAccess_read_idle (q := .ilen) rfl hb, sameUnit_answer _ s,
      toNat_hostData_answer (by norm_num) s.ilen s⟩
  · exact ⟨_, hostAccess_read_idle (q := .olen) rfl hb, sameUnit_answer _ s,
      toNat_hostData_answer (by norm_num) s.olen s⟩
  · exact ⟨_, hostAccess_read_idle (q := .px) rfl hb, sameUnit_answer _ s, rfl⟩
  · exact ⟨_, hostAccess_read_idle (q := .py) rfl hb, sameUnit_answer _ s, rfl⟩
  · exact ⟨_, hostAccess_write (q := .ilen) rfl hb fun _ => hv, rfl, toNat_ofNat_of_lt hv⟩
  · exact ⟨_, hostAccess_write (q := .px) rfl hb fun _ => hv, rfl, toNat_ofNat_of_lt hv⟩
  · exact ⟨_, hostAccess_write (q := .py) rfl hb fun _ => hv, rfl, toNat_ofNat_of_lt hv⟩
  · exact hostAccess_write (q := .status) rfl hb nofun
  · exact hostAccess_write (q := .olen) rfl hb nofun

/-- Settles O18: inside the result the byte is stored, beyond it is a draw. -/
theorem outputBufferRead : Obligations.OutputBufferRead := by
  intro s i hb hi
  refine ⟨fun ho => ?_, fun ho => ?_⟩
  · exact ⟨_, hostAccess_readObuf_inside hb hi ho, sameUnit_answer _ s, toNat_hostData_answer (by norm_num) _ s⟩
  · refine ⟨_, hostAccess_readObuf_beyond hb hi ho, ?_, rfl⟩
    rw [toNat_hostData_answer (by norm_num)]
    exact (drawByte s).1.isLt

/-- Settles O19: the register number is tested first, then `BUSY`, then the range of the index or value. -/
theorem outsideAccessRefused : Obligations.OutsideAccessRefused := by
  intro s
  refine ⟨fun r v hr => hostAccess_noSuchRegister hr v s, fun hb => ⟨fun i b hi => hostAccess_ibuf_outside hb hi b,
    fun i hi => hostAccess_readObuf_outside hb hi, fun v hv => ⟨?_, ?_⟩, fun v hv => ⟨?_, ?_⟩⟩⟩
  · exact hostAccess_write_tooWide (q := .cmd) rfl hb rfl hv
  · exact hostAccess_write_tooWide (q := .ilen) rfl hb rfl hv
  · exact hostAccess_write_tooWide (q := .px) rfl hb rfl hv
  · exact hostAccess_write_tooWide (q := .py) rfl hb rfl hv

/-- Settles O32: every completion, with a result or with an error, draws the rest of `OBUF` anew. -/
theorem outsideResultIsFree : Obligations.OutsideResultIsFree := by
  refine ⟨fun s => ?_, fun i s => ?_⟩
  · obtain ⟨t, ht, hrest⟩ := drawsRest_completeStep s
    exact ⟨t, ht, hrest.draws, fun _ => hrest.obufByte_outside⟩
  · have hrest := drawsRest_runCommand (bodyOf i) s
    exact ⟨_, exec_eq i s, hrest.draws, fun _ => hrest.obufByte_outside⟩

end Sys2Proof.Machine

/-! PROOFS, encoding (spec 30_encoding R46 to R50, R53): every command has one word and every word decodes to what its
three fields say. The sixteen words are the words of the sixteen commands, so the facts about legal words come from
`decode_encode` and the verdict of `decode` on the fields. -/

namespace Sys2Proof

/-! ### The word and the name of a command -/

/-- The facts of Laws/PerInstr.lean, for any command. -/
theorem encodesLegally (i : Instr) : Laws.EncodesLegally.Statement i := by
  cases i with
  | b58enc => exact Laws.EncodesLegally.b58enc
  | b58dec => exact Laws.EncodesLegally.b58dec
  | b58cenc => exact Laws.EncodesLegally.b58cenc
  | b58cdec => exact Laws.EncodesLegally.b58cdec
  | pt2pk c => exact Laws.EncodesLegally.pt2pk c
  | recy c => exact Laws.EncodesLegally.recy c
  | pk2pt => exact Laws.EncodesLegally.pk2pt
  | hash160 => exact Laws.EncodesLegally.hash160
  | addr => exact Laws.EncodesLegally.addr
  | wifenc c => exact Laws.EncodesLegally.wifenc c
  | wifdec => exact Laws.EncodesLegally.wifdec
  | sec2pk c => exact Laws.EncodesLegally.sec2pk c

theorem legalWord_encode (i : Instr) : legalWord (encode i) := by
  obtain ⟨-, hlegal, -, -, -⟩ := encodesLegally i
  exact hlegal

theorem assemble_name (i : Instr) : assemble i.name = some i := by
  obtain ⟨-, -, -, -, hname⟩ := encodesLegally i
  exact hname

/-- A mnemonic stands for the word of its command (30_encoding R53). -/
theorem word_of_name (i : Instr) : (assemble i.name).map encode = some (encode i) := by
  rw [assemble_name, Option.map_some]

/-- The decoder gives an encoded command back (30_encoding R50), checked on the sixteen. -/
theorem decode_encode (i : Instr) : decode (encode i) = .ok i :=
  have sixteen : ∀ j ∈ Instr.all, decode (encode j) = .ok j := by decide
  sixteen i i.wf_all

/-! ### The word with given fields -/

/-- A word with reserved bits 0 and the opcode and flag of a command is the command's word (30_encoding R46). -/
theorem eq_encode_of_fields {w : Word16} {i : Instr} (hrsv : rsvField w = 0) (hop : opField w = opOf i)
    (hflag : flagField w = flagOf i) : w = encode i := by
  have hw := word_of_fields w
  rw [hrsv, hop, hflag] at hw
  calc w = BitVec.ofNat 16 w.toNat := by rw [BitVec.ofNat_toNat, BitVec.setWidth_eq]
    _ = encode i := congrArg (BitVec.ofNat 16) hw

/-- Every legal pair of opcode and flag is some command's (30_encoding R48). -/
theorem exists_command_of_fields : ∀ op ∈ opcodes, ∀ c : Bool, (c = true → op ∈ flagOpcodes) →
    ∃ i ∈ Instr.all, opOf i = op ∧ flagOf i = c := by
  decide

theorem exists_encode_of_legalWord {w : Word16} (h : legalWord w) : ∃ i, w = encode i := by
  obtain ⟨hrsv, hop, hflag⟩ := (legalWord_iff w).1 h
  obtain ⟨i, -, hopi, hflagi⟩ := exists_command_of_fields _ hop _ hflag
  exact ⟨i, eq_encode_of_fields hrsv hopi.symm hflagi.symm⟩

/-! ### The verdict of `decode` on each kind of word (30_encoding R49, R50) -/

theorem decode_of_reservedBits {w : Word16} (hrsv : rsvField w ≠ 0) : decode w = .error .reservedBits :=
  if_pos hrsv

/-- The twelve rows of `decode` are the twelve opcodes. -/
theorem decode_of_unknownOpcode {w : Word16} (hrsv : rsvField w = 0) (hop : opField w ∉ opcodes) :
    decode w = .error .unknownOpcode := by
  rw [decode, if_neg (not_not.2 hrsv)]
  split
  case h_13 => rfl
  all_goals exact absurd (by simp [opcodes, *]) hop

/-- The opcodes outside `flagOpcodes` are the eight whose row in `decode` is `decodeFlagless`. -/
theorem decode_of_flagNotAllowed {w : Word16} (hrsv : rsvField w = 0) (hop : opField w ∈ opcodes)
    (hflag : flagField w = true) (hno : opField w ∉ flagOpcodes) : decode w = .error .flagNotAllowed := by
  have flagless : ∀ op ∈ opcodes, op ∉ flagOpcodes → op ∈ [0x01, 0x02, 0x03, 0x04, 0x12, 0x20, 0x21, 0x23] := by
    decide
  have hrow := flagless _ hop hno
  simp only [List.mem_cons, List.not_mem_nil, or_false] at hrow
  rw [decode, if_neg (not_not.2 hrsv)]
  rcases hrow with h | h | h | h | h | h | h | h <;> simp only [h, hflag, decodeFlagless, if_true]

/-- What `decode` answers, said once: the first test of R49 that the word fails, or the command whose word it is. -/
theorem decode_cases (w : Word16) :
    (rsvField w ≠ 0 ∧ decode w = .error .reservedBits) ∨
    (rsvField w = 0 ∧ opField w ∉ opcodes ∧ decode w = .error .unknownOpcode) ∨
    (rsvField w = 0 ∧ opField w ∈ opcodes ∧ flagField w = true ∧ opField w ∉ flagOpcodes ∧
      decode w = .error .flagNotAllowed) ∨
    (legalWord w ∧ ∃ i, w = encode i ∧ decode w = .ok i) := by
  by_cases hrsv : rsvField w = 0
  · by_cases hop : opField w ∈ opcodes
    · by_cases hflag : flagField w = true → opField w ∈ flagOpcodes
      · have hlegal : legalWord w := (legalWord_iff w).2 ⟨hrsv, hop, hflag⟩
        obtain ⟨i, rfl⟩ := exists_encode_of_legalWord hlegal
        exact .inr (.inr (.inr ⟨hlegal, i, rfl, decode_encode i⟩))
      · obtain ⟨hset, hno⟩ := Classical.not_imp.1 hflag
        exact .inr (.inr (.inl ⟨hrsv, hop, hset, hno, decode_of_flagNotAllowed hrsv hop hset hno⟩))
    · exact .inr (.inl ⟨hrsv, hop, decode_of_unknownOpcode hrsv hop⟩)
  · exact .inl ⟨hrsv, decode_of_reservedBits hrsv⟩

/-- A word that decodes to a command is the command's only word (30_encoding R46). -/
theorem eq_encode_of_decode {w : Word16} {i : Instr} (h : decode w = .ok i) : w = encode i := by
  rcases decode_cases w with ⟨-, hd⟩ | ⟨-, -, hd⟩ | ⟨-, -, -, -, hd⟩ | ⟨-, j, hw, hd⟩
  · cases hd.symm.trans h
  · cases hd.symm.trans h
  · cases hd.symm.trans h
  · cases hd.symm.trans h
    exact hw

theorem exists_decode_iff (w : Word16) : (∃ i, decode w = .ok i) ↔ legalWord w := by
  constructor
  · rintro ⟨i, h⟩
    rw [eq_encode_of_decode h]
    exact legalWord_encode i
  · intro h
    obtain ⟨i, rfl⟩ := exists_encode_of_legalWord h
    exact ⟨i, decode_encode i⟩

theorem decode_reservedBits_iff (w : Word16) : decode w = .error .reservedBits ↔ rsvField w ≠ 0 := by
  refine ⟨fun h hrsv => ?_, decode_of_reservedBits⟩
  rcases decode_cases w with ⟨hne, -⟩ | ⟨-, -, hd⟩ | ⟨-, -, -, -, hd⟩ | ⟨-, i, -, hd⟩
  · exact hne hrsv
  all_goals cases hd.symm.trans h

theorem decode_unknownOpcode_iff (w : Word16) :
    decode w = .error .unknownOpcode ↔ rsvField w = 0 ∧ opField w ∉ opcodes := by
  refine ⟨fun h => ?_, fun ⟨hrsv, hop⟩ => decode_of_unknownOpcode hrsv hop⟩
  rcases decode_cases w with ⟨-, hd⟩ | ⟨hrsv, hop, -⟩ | ⟨-, -, -, -, hd⟩ | ⟨-, i, -, hd⟩
  case inr.inl => exact ⟨hrsv, hop⟩
  all_goals cases hd.symm.trans h

theorem decode_flagNotAllowed_iff (w : Word16) : decode w = .error .flagNotAllowed ↔
    rsvField w = 0 ∧ opField w ∈ opcodes ∧ flagField w = true ∧ opField w ∉ flagOpcodes := by
  refine ⟨fun h => ?_, fun ⟨hrsv, hop, hflag, hno⟩ => decode_of_flagNotAllowed hrsv hop hflag hno⟩
  rcases decode_cases w with ⟨-, hd⟩ | ⟨-, -, hd⟩ | ⟨hrsv, hop, hflag, hno, -⟩ | ⟨-, i, -, hd⟩
  case inr.inr.inl => exact ⟨hrsv, hop, hflag, hno⟩
  all_goals cases hd.symm.trans h

/-! ### The obligations -/

/-- Settles O8: the round trip on the sixteen commands, and the inversion of `decode` for the converse. -/
theorem decodeInvertsEncode : Obligations.DecodeInvertsEncode :=
  ⟨fun i => ⟨i.wf_all, decode_encode i⟩, fun _ _ => eq_encode_of_decode⟩

/-- Settles O9: the tests of R49 written on the bits are those on the decoder's fields. -/
theorem illegalWordsAreRejected : Obligations.IllegalWordsAreRejected := fun w =>
  ⟨exists_decode_iff w, decode_reservedBits_iff w, decode_unknownOpcode_iff w, decode_flagNotAllowed_iff w⟩

/-- Settles O10: the listed values are the words of the sixteen commands, in the order of `Instr.all`. -/
theorem legalWordsAreSixteen : Obligations.LegalWordsAreSixteen := by
  intro w
  have hlist : Instr.all.map encode = [0x0001, 0x0002, 0x0003, 0x0004, 0x0010, 0x0110, 0x0011, 0x0111, 0x0012, 0x0020,
      0x0021, 0x0022, 0x0122, 0x0023, 0x0024, 0x0124] := by decide
  rw [← hlist, List.mem_map]
  constructor
  · intro h
    obtain ⟨i, rfl⟩ := exists_encode_of_legalWord h
    exact ⟨i, i.wf_all, rfl⟩
  · rintro ⟨i, -, rfl⟩
    exact legalWord_encode i

/-- Settles O11: each word written out is the word of its command. -/
theorem sampleWordsDecode : Obligations.SampleWordsDecode :=
  ⟨decode_encode .b58enc, decode_encode .b58dec, decode_encode .b58cenc, decode_encode .b58cdec,
    decode_encode (.pt2pk false), decode_encode (.pt2pk true), decode_encode (.recy false), decode_encode (.recy true),
    decode_encode .pk2pt, decode_encode .hash160, decode_encode .addr, decode_encode (.wifenc false),
    decode_encode (.wifenc true), decode_encode .wifdec, decode_encode (.sec2pk false), decode_encode (.sec2pk true)⟩

/-- Settles O12: the names by `word_of_name`; the suffix on a command without a flag is no command's name. -/
theorem mnemonicsNameCommands : Obligations.MnemonicsNameCommands :=
  ⟨assemble_name, word_of_name (.pt2pk false), word_of_name (.pt2pk true), word_of_name (.recy false),
    word_of_name (.recy true), word_of_name (.wifenc false), word_of_name (.wifenc true), word_of_name (.sec2pk false),
    word_of_name (.sec2pk true), by decide⟩

end Sys2Proof

/-! PROOFS, steps (spec 30_encoding R56, R57, 70_reset R132, R134): the issue step, the completion step, and what else
can happen in the busy window. -/

namespace Sys2Proof.Machine

/-! ### The completion step -/

theorem step_of_completesNext {s : State} (h : s.completesNext) : step s = completeStep s := by
  rw [step, h]

/-- A busy unit does not idle: its completion step is enabled (30_encoding R57). -/
theorem nextMove_ne_idle {s : State} (hb : s.busy = true) : nextMove s ≠ .idle := by
  unfold nextMove
  rw [hb]
  cases s.inputs with
  | nil => exact nofun
  | cons i rest => cases he : i.early <;> simp [he]

theorem keepsInputs_runCommand (body : State → Except CmdError Result) (s : State) :
    KeepsInputs s (runCommand body s) := by
  rcases runCommand_raise_or_succeed body s with ⟨e, heq⟩ | ⟨r, -, heq⟩
  · rw [heq]; exact (failsWith_raise e s).keeps
  · rw [heq]; exact keepsInputs_succeed r s

/-- A command that has run has completed: `BUSY = 0` and `DONE = 1` (30_encoding R58, 60_exceptions R116). -/
theorem runCommand_done (body : State → Except CmdError Result) (s : State) :
    (runCommand body s).busy = false ∧ statusDone (runCommand body s).status = true := by
  rcases runCommand_raise_or_succeed body s with ⟨e, heq⟩ | ⟨r, -, heq⟩
  · rw [heq]; exact ⟨busy_raise e s, statusDone_failed e⟩
  · rw [heq]; exact ⟨busy_succeed r s, statusDone_completed⟩

/-! ### The host's accesses as steps -/

/-- An access that is the next input, in its place before a completion if a command runs (20_memory R40). -/
theorem step_host {s : State} {early : Bool} {a : HostAccess} {rest : List Input} (h : s.busy = true → early = true)
    (hi : s.inputs = ⟨early, .host a⟩ :: rest) : step s = hostAccess a { s with inputs := rest } :=
  step_outside h hi

/-- The only access that the busy window does not refuse is a read of `CMD` or `STATUS` (20_memory R43). -/
theorem hostAccess_busy_cases {a : HostAccess} {s t : State} (hb : s.busy = true) (h : hostAccess a s = .next t) :
    (a = .read 0 ∨ a = .read 1) ∧ ∃ v, t = answer v s := by
  have hidle : s.busy ≠ false := by simp [hb]
  rcases hostAccess_cases h with ⟨r, q, rfl, hq, hr, rfl⟩ | ⟨_, _, _, -, -, hf, -⟩ | ⟨_, _, -, hf, -⟩ |
    ⟨_, -, hf, -⟩ | ⟨_, -, hf, -⟩ | ⟨_, -, hf, -⟩
  · refine ⟨?_, _, rfl⟩
    rcases number_of_readableBusy hq (hr hb) with rfl | rfl
    · exact .inl rfl
    · exact .inr rfl
  all_goals exact absurd hf hidle

theorem hostAccess_write_busy {r v : Nat} {q : HostReg} {s : State} (hq : HostReg.ofNumber r = some q)
    (hb : s.busy = true) : hostAccess (.write r v) s = .refused .busyAccess := by
  simp only [hostAccess, hostWrite, hq, hb, if_true]

/-! ### The obligations -/

/-- Settles O4: the completion step comes next, and its only act is to decode the latch. -/
theorem stepRunsDecodedCommand : Obligations.StepRunsDecodedCommand := by
  intro s i hb hearly hd
  rw [step_of_completesNext ((completesNext_iff s).2 ⟨hb, hearly⟩), completeStep_of_decode_ok hd, exec_eq]

/-- Settles O5, by what a step can do: a busy unit completes, answers a read, or is reset; it does not idle. -/
theorem busyUntilCompletionOrReset : Obligations.BusyUntilCompletionOrReset := by
  intro s t hb ht
  rcases step_cases ht with ⟨hc, i, -, rfl⟩ | ⟨hc, _, -, rfl⟩ | ⟨a, rest, hm, hacc⟩ | ⟨rest, hm, rfl⟩ | ⟨hm, -⟩
  · obtain ⟨hidle, hdone⟩ := runCommand_done (bodyOf i) s
    exact .inr (.inl ⟨hidle, hc, hdone, keepsInputs_runCommand _ s⟩)
  · exact .inr (.inl ⟨busy_raise _ s, hc, statusDone_failed _, (failsWith_raise _ s).keeps⟩)
  · have hinputs := inputs_of_nextMove_busy hb hm
    obtain ⟨hread, v, rfl⟩ := hostAccess_busy_cases (s := { s with inputs := rest }) hb hacc
    refine .inl ⟨hb, sameUnit_answer_withInputs v s rest, rest, ?_⟩
    rcases hread with rfl | rfl
    · exact .inl hinputs
    · exact .inr hinputs
  · exact .inr (.inr ⟨busy_resetEvent _, by rw [resetEvent_status]; decide, true, rest, inputs_of_nextMove_busy hb hm⟩)
  · exact absurd hm (nextMove_ne_idle hb)

/-- Settles O13: a write to `CMD` is the issue step whatever the word; while a command runs `BUSY` is tested first. -/
theorem issueStep : Obligations.IssueStep := by
  intro s w rest hw
  refine ⟨fun ⟨hb, early, hi⟩ => ?_, fun hb hi => ?_⟩
  · have hstep : step s = .next (issue (BitVec.ofNat 16 w) { s with inputs := rest }) :=
      (step_host (by simp [hb]) hi).trans
        (hostAccess_write (q := .cmd) (s := { s with inputs := rest }) rfl hb fun _ => hw)
    exact ⟨_, hstep, toNat_ofNat_of_lt hw, statusBusy_issued, statusDone_issued, statusErr_issued, rfl⟩
  · exact (step_host (fun _ => rfl) hi).trans
      (hostAccess_write_busy (q := .cmd) (s := { s with inputs := rest }) rfl hb)

end Sys2Proof.Machine

/-! PROOFS, host programs (spec 30_encoding R54, R55, 20_memory R33): one rule a line of a program, the loading of
bytes by `LDI` and the copying of the output by `O2I`. Both fill `IBUF` from index 0 and then write `ILEN`. -/

namespace Sys2Proof.Machine

/-! ### Two states that differ in what the host has read and in what is to come (20_memory R37) -/

theorem SameUnit.busy {s t : State} (h : SameUnit s t) : t.busy = s.busy := (congrArg State.busy h).trans rfl

theorem SameUnit.olen {s t : State} (h : SameUnit s t) : t.olen = s.olen := (congrArg State.olen h).trans rfl

/-! ### Steps of the host -/

/-- So many steps of the host, the unit taking none by itself, lead from one point of a run to another. -/
def HostRun.Reaches (n : Nat) (h h' : HostRun) : Prop := HostRun.run (List.replicate n .host) h = .next h'

theorem HostRun.reaches_zero (h : HostRun) : HostRun.Reaches 0 h h := rfl

theorem HostRun.reaches_one {h h' : HostRun} (hs : h.hostStep = .next h') : HostRun.Reaches 1 h h' := by
  simp only [Reaches, List.replicate_one, run, turn, hs]

/-- A schedule is run part by part. -/
theorem HostRun.run_append {ts us : List Turn} {h h' : HostRun} (hts : HostRun.run ts h = .next h') :
    HostRun.run (ts ++ us) h = HostRun.run us h' := by
  induction ts generalizing h with
  | nil => cases hts; rfl
  | cons t ts ih =>
    simp only [List.cons_append, run] at hts ⊢
    cases ht : h.turn t with
    | next g => rw [ht] at hts; exact ih hts
    | fault r => rw [ht] at hts; cases hts
    | refused r => rw [ht] at hts; cases hts

theorem HostRun.Reaches.trans {m n : Nat} {h₁ h₂ h₃ : HostRun} (h₁₂ : HostRun.Reaches m h₁ h₂)
    (h₂₃ : HostRun.Reaches n h₂ h₃) : HostRun.Reaches (m + n) h₁ h₃ := by
  rw [Reaches, ← List.replicate_append_replicate, run_append h₁₂]
  exact h₂₃

theorem HostRun.Reaches.congr {m n : Nat} {h h' : HostRun} (hr : HostRun.Reaches m h h') (hmn : m = n) :
    HostRun.Reaches n h h' :=
  hmn ▸ hr

/-! ### What the host remembers -/

/-- The register value that `RD OLEN` leaves is the length it has read. -/
theorem HostRun.value_tookReg_olen (h : HostRun) (w : Word16) (s : State) :
    (HostRun.tookReg .olen h (answer (w.setWidth 256) s)).value (.reg .olen) = w.toNat := by
  have hread : (h.regs.setIfInBounds 3 (w.setWidth 256)).toList.getD 3 0 = w.setWidth 256 := by simp
  rw [value, tookReg, HostReg.number, answer_hostData, hread, BitVec.toNat_setWidth_of_le (by norm_num)]

/-- The byte that `RDO` leaves is the byte it has read. -/
theorem HostRun.value_tookByte (h : HostRun) (b : Byte) (s : State) :
    (HostRun.tookByte h (answer (b.setWidth 256) s)).value .byte = b.toNat := by
  rw [value, tookByte, answer_hostData, BitVec.setWidth_setWidth_of_le _ (by norm_num), BitVec.setWidth_eq]

/-! ### One line of a program (30_encoding R54) -/

theorem HostRun.hostStep_cons {h : HostRun} {l : HostLine} {rest : List HostLine} (ht : h.todo = l :: rest) :
    h.hostStep = HostRun.perform { h with todo := rest } l := by
  simp only [hostStep, ht]

/-- A line that is a primitive which the unit answers is one step of the host; the primitive is the only input. -/
theorem HostRun.reaches_of_access {h : HostRun} {l : HostLine} {rest : List HostLine} {a : HostAccess}
    {after : HostRun → State → HostRun} {u : State} (ht : h.todo = l :: rest)
    (hl : HostRun.perform { h with todo := rest } l = HostRun.access { h with todo := rest } a after)
    (hu : hostAccess a { h.unit with inputs := [] } = .next u) :
    HostRun.Reaches 1 h (after { h with todo := rest } u) := by
  have hstep : step { h.unit with inputs := [⟨true, .host a⟩] } = .next u :=
    (step_host (fun _ => rfl) rfl).trans hu
  apply reaches_one
  rw [hostStep_cons ht, hl]
  simp only [access, hstep]

/-- `RD OLEN` remembers the length of the output. -/
theorem HostRun.reaches_rdOlen {h : HostRun} {rest : List HostLine} (hb : h.unit.busy = false)
    (ht : h.todo = .rd .olen :: rest) :
    ∃ h', HostRun.Reaches 1 h h' ∧ h'.todo = rest ∧ SameUnit h.unit h'.unit ∧
      h'.value (.reg .olen) = h.unit.olen.toNat :=
  ⟨_, reaches_of_access ht rfl (hostAccess_read_idle (q := .olen) (s := { h.unit with inputs := [] }) rfl hb), rfl,
    sameUnit_answer_withInputs _ h.unit [], value_tookReg_olen ..⟩

/-- `WR ILEN, n` sets the length of the input. -/
theorem HostRun.reaches_wrIlen {h : HostRun} {n : Nat} {rest : List HostLine} (hb : h.unit.busy = false)
    (hn : n < 2 ^ 16) (ht : h.todo = .wr .ilen (.lit n) :: rest) :
    ∃ h', HostRun.Reaches 1 h h' ∧ h'.todo = rest ∧
      h'.unit = { h.unit with ilen := BitVec.ofNat 16 n, inputs := [] } :=
  ⟨_, reaches_of_access ht rfl
    (hostAccess_write (q := .ilen) (s := { h.unit with inputs := [] }) rfl hb fun _ => hn), rfl, rfl⟩

/-- `WRI i, v` puts the byte that is the operand's value into `IBUF`. -/
theorem HostRun.reaches_wri {h : HostRun} {i : Nat} {v : HostValue} {b : Byte} {rest : List HostLine}
    (hb : h.unit.busy = false) (hi : i < Config.params.ibufCap) (hv : h.value v = b.toNat)
    (ht : h.todo = .wri i v :: rest) :
    ∃ h', HostRun.Reaches 1 h h' ∧ h'.todo = rest ∧
      h'.unit = { h.unit with ibuf := h.unit.ibuf.write i b, inputs := [] } := by
  have hval : HostRun.value { h with todo := rest } v = b.toNat := by cases v <;> exact hv
  have hl : HostRun.perform { h with todo := rest } (.wri i v)
      = HostRun.access { h with todo := rest } (.writeIbuf i b) HostRun.took := by
    rw [perform, hval, if_neg (Nat.not_le.2 b.isLt), BitVec.ofNat_toNat, BitVec.setWidth_eq]
  exact ⟨_, reaches_of_access ht hl (hostAccess_writeIbuf (s := { h.unit with inputs := [] }) hb hi b), rfl, rfl⟩

/-- `RDO i` inside the result takes the byte of the output. -/
theorem HostRun.reaches_rdo {h : HostRun} {i : Nat} {rest : List HostLine} (hb : h.unit.busy = false)
    (hi : i < Config.params.obufCap) (ho : i < h.unit.olen.toNat) (ht : h.todo = .rdo i :: rest) :
    ∃ h', HostRun.Reaches 1 h h' ∧ h'.todo = rest ∧ SameUnit h.unit h'.unit ∧
      h'.value .byte = (obufByte h.unit i).toNat :=
  ⟨_, reaches_of_access ht rfl (hostAccess_readObuf_inside (s := { h.unit with inputs := [] }) hb hi ho), rfl,
    sameUnit_answer_withInputs _ h.unit [], value_tookByte ..⟩

/-- The line after `RD OLEN` becomes the copying lines for the length that is remembered. -/
theorem HostRun.reaches_copyOut {h : HostRun} {n : Nat} {rest : List HostLine} (hn : h.value (.reg .olen) = n)
    (ht : h.todo = .copyOut :: rest) :
    ∃ h', HostRun.Reaches 1 h h' ∧ h'.todo = copyOutLines n ++ rest ∧ h'.unit = h.unit := by
  subst hn
  exact ⟨_, reaches_one (hostStep_cons ht), rfl, rfl⟩

/-! ### Filling `IBUF` line by line (30_encoding R55) -/

/-- The lines `WRI` of `LDI`, from an index on, put the bytes there. -/
theorem HostRun.reaches_writeLines (bs : ByteString) {k : Nat} {h : HostRun} {rest : List HostLine}
    (hb : h.unit.busy = false) (hcap : k + bs.length ≤ Config.params.ibufCap)
    (ht : h.todo = ((bs.zipIdx k).map fun x => .wri x.2 (.lit x.1.toNat)) ++ rest) :
    ∃ h', HostRun.Reaches bs.length h h' ∧ h'.todo = rest ∧
      h'.unit = { h.unit with ibuf := memWrite h.unit.ibuf k bs, inputs := h'.unit.inputs } := by
  induction bs generalizing k h with
  | nil => exact ⟨h, reaches_zero h, ht, rfl⟩
  | cons b bs ih =>
    rw [List.length_cons] at hcap
    obtain ⟨h₁, hwrite, ht₁, hunit⟩ :=
      reaches_wri (v := .lit b.toNat) hb (show k < Config.params.ibufCap by omega) rfl ht
    have hidle : h₁.unit.busy = false := (congrArg State.busy hunit).trans hb
    obtain ⟨h', hrest, ht', hunit'⟩ := ih hidle (show k + 1 + bs.length ≤ Config.params.ibufCap by omega) ht₁
    refine ⟨h', (hwrite.trans hrest).congr (Nat.add_comm 1 _), ht', hunit'.trans ?_⟩
    rw [hunit, memWrite]

/-- One pair `RDO`, `WRI` of `O2I` copies one byte of the output. -/
theorem HostRun.reaches_copyByte {h : HostRun} {k : Nat} {rest : List HostLine} (hb : h.unit.busy = false)
    (hcap : k < Config.params.ibufCap) (ho : k < h.unit.olen.toNat) (ht : h.todo = .rdo k :: .wri k .byte :: rest) :
    ∃ h', HostRun.Reaches 2 h h' ∧ h'.todo = rest ∧
      SameUnit { h.unit with ibuf := h.unit.ibuf.write k (obufByte h.unit k) } h'.unit := by
  have hbuf : Config.params.ibufCap ≤ Config.params.obufCap := by decide
  obtain ⟨h₁, hread, ht₁, hunit, hbyte⟩ := reaches_rdo hb (hcap.trans_le hbuf) ho ht
  have hidle : h₁.unit.busy = false := hunit.busy.trans hb
  obtain ⟨h₂, hwrite, ht₂, hunit'⟩ := reaches_wri hidle hcap hbyte ht₁
  exact ⟨h₂, hread.trans hwrite, ht₂, by rw [hunit', hunit]⟩

/-- The pairs `RDO`, `WRI` of `O2I`, from an index on, put the bytes of the output there. -/
theorem HostRun.reaches_copyLines (m : Nat) {k : Nat} {h : HostRun} {rest : List HostLine}
    (hb : h.unit.busy = false) (hcap : h.unit.olen.toNat ≤ Config.params.ibufCap) (hm : k + m ≤ h.unit.olen.toNat)
    (ht : h.todo = ((List.range' k m).flatMap fun i => [.rdo i, .wri i .byte]) ++ rest) :
    ∃ h', HostRun.Reaches (2 * m) h h' ∧ h'.todo = rest ∧
      SameUnit { h.unit with ibuf := memWrite h.unit.ibuf k ((List.range' k m).map (obufByte h.unit)) } h'.unit := by
  induction m generalizing k h with
  | zero => exact ⟨h, reaches_zero h, ht, rfl⟩
  | succ m ih =>
    obtain ⟨h₁, hpair, ht₁, hunit⟩ := reaches_copyByte hb (show k < Config.params.ibufCap by omega) (by omega) ht
    have holen : h₁.unit.olen = h.unit.olen := hunit.olen
    obtain ⟨h', hrest, ht', hunit'⟩ := ih (hunit.busy.trans hb) (holen ▸ hcap) (by rw [holen]; omega) ht₁
    refine ⟨h', (hpair.trans hrest).congr (by omega), ht', hunit'.trans ?_⟩
    rw [hunit]
    rfl

/-- The expansion of `O2I` leaves the output and its length where the input and its length stand. -/
theorem HostRun.reaches_copyOutLines {h : HostRun} {rest : List HostLine} (hb : h.unit.busy = false)
    (hcap : h.unit.olen.toNat ≤ Config.params.ibufCap) (ht : h.todo = copyOutLines h.unit.olen.toNat ++ rest) :
    ∃ h', HostRun.Reaches (2 * h.unit.olen.toNat + 1) h h' ∧ h'.todo = rest ∧
      SameUnit { h.unit with ibuf := memWrite h.unit.ibuf 0 (outputBytes h.unit), ilen := h.unit.olen } h'.unit := by
  rw [copyOutLines, List.range_eq_range', List.append_assoc] at ht
  obtain ⟨h₁, hcopy, ht₁, hunit⟩ := reaches_copyLines _ hb hcap (Nat.zero_add _).le ht
  obtain ⟨h₂, hlen, ht₂, hunit'⟩ := reaches_wrIlen (hunit.busy.trans hb) h.unit.olen.isLt ht₁
  refine ⟨h₂, hcopy.trans hlen, ht₂, ?_⟩
  rw [hunit', hunit, BitVec.ofNat_toNat, BitVec.setWidth_eq, outputBytes, List.range_eq_range']

/-- A string in `IBUF` from index 0 on with its length in `ILEN` is the input (30_encoding R47). -/
theorem inputBytes_of_memWrite {s : State} {m : Memory} {bs : ByteString} (hm : m.wf = true)
    (hibuf : s.ibuf = memWrite m 0 bs) (hilen : s.ilen.toNat = bs.length) : inputBytes s = bs := by
  rw [inputBytes, hibuf, hilen]
  exact memRead_memWrite hm 0 bs

/-! ### The obligations -/

/-- Settles O21: the lines of `LDI` are the writes of its bytes and the write of `ILEN`. -/
theorem ldiLoadsInput : Obligations.LdiLoadsInput := by
  intro h bs rest hinv hb hcap ht
  have hlen : bs.length < 2 ^ 16 := hcap.trans_lt (show Config.params.ibufCap < 2 ^ 16 by decide)
  rw [macroLdi, List.append_assoc] at ht
  obtain ⟨h₁, hbytes, ht₁, hunit₁⟩ := HostRun.reaches_writeLines bs hb (by omega) ht
  have hidle : h₁.unit.busy = false := (congrArg State.busy hunit₁).trans hb
  obtain ⟨h₂, hend, ht₂, hunit₂⟩ := HostRun.reaches_wrIlen hidle hlen ht₁
  have hibuf : h₂.unit.ibuf = memWrite h.unit.ibuf 0 bs := by rw [hunit₂, hunit₁]
  have hilen : h₂.unit.ilen.toNat = bs.length := by rw [hunit₂]; exact toNat_ofNat_of_lt hlen
  refine ⟨h₂, hbytes.trans hend, ht₂, inputBytes_of_memWrite hinv.ibuf_wf hibuf hilen, hilen, fun j hj => ?_, ?_⟩
  · rw [hibuf, read_memWrite hinv.ibuf_wf, if_pos (Nat.zero_le j), Nat.sub_zero, List.getD_eq_default bs _ hj]
  · rw [hunit₂, hunit₁]

/-- Settles O22: `RD OLEN`, the expansion for that length, the copying of each byte, and the write of `ILEN`. -/
theorem copyMacroMovesOutput : Obligations.CopyMacroMovesOutput := by
  intro h rest hinv hb hcap ht
  obtain ⟨h₁, hlen, ht₁, hunit₁, hvalue⟩ := HostRun.reaches_rdOlen hb ht
  obtain ⟨h₂, hexpand, ht₂, hunit₂⟩ := HostRun.reaches_copyOut hvalue ht₁
  rw [← hunit₂] at hunit₁
  have holen : h₂.unit.olen = h.unit.olen := hunit₁.olen
  obtain ⟨h₃, hcopy, ht₃, hunit₃⟩ :=
    HostRun.reaches_copyOutLines (hunit₁.busy.trans hb) (holen ▸ hcap) (holen ▸ ht₂)
  have hunit : SameUnit { h.unit with ibuf := memWrite h.unit.ibuf 0 (outputBytes h.unit), ilen := h.unit.olen }
      h₃.unit := hunit₃.trans (by rw [hunit₁]; rfl)
  have hrun : HostRun.Reaches (2 * h.unit.olen.toNat + 3) h h₃ :=
    ((hlen.trans hexpand).trans hcopy).congr (by rw [holen]; omega)
  have hilen : h₃.unit.ilen = h.unit.olen := by rw [hunit]
  have hinput : inputBytes h₃.unit = outputBytes h.unit :=
    inputBytes_of_memWrite hinv.ibuf_wf (by rw [hunit]) (by rw [hilen, length_outputBytes])
  exact ⟨h₃, hrun, ht₃, ⟨hilen, hinput⟩, by rw [hunit]; rfl, by rw [hunit], by rw [hunit], by rw [hunit]⟩

end Sys2Proof.Machine

/-! PROOFS, Base58Check (spec 40_base58check): encoding and decoding on strings that are split at their leading zeros.
`k` zero bytes before the bytes `u` correspond to `k` digits 0 before the base-58 digits of the value of `u`, where
neither rest begins with a zero. Every byte string and every text over the alphabet is of this form. -/

namespace Sys2Proof.Machine

/-! ### Strings split at their leading zeros -/

@[simp] theorem digitsLE_zero (base : Nat) : digitsLE base 0 = [] := rfl

theorem charDigits_eq_none_iff (c : Params) (t : ByteString) : charDigits c t = none ↔ ¬ allSymbols c t := by
  rw [charDigits_eq_none]
  simp [allSymbols]

/-- A text over the alphabet is leading zero symbols and the characters of digits that do not begin with 0. -/
theorem exists_digits_of_allSymbols {c : Params} (hc : alphabetWf c.alphabet) {t : ByteString}
    (h : allSymbols c t) : ∃ k ds, t = (List.replicate k 0 ++ ds).map (symbolOf c) ∧
      (∀ d ∈ ds, d < 58) ∧ ds.head? ≠ some 0 := by
  obtain ⟨u, ht, hu⟩ := eq_replicate_append (zeroSymbol c) t
  have hsymbols : allSymbols c u := fun ch hmem => h ch (ht ▸ List.mem_append_right _ hmem)
  obtain ⟨ds, hds⟩ := Option.ne_none_iff_exists'.1 fun hnone => (charDigits_eq_none_iff c u).1 hnone hsymbols
  obtain ⟨rfl, hlt⟩ := eq_map_of_charDigits hc hds
  refine ⟨leadingCount (zeroSymbol c) t, ds, ?_, hlt, fun h0 => hu ?_⟩
  · rw [List.map_append, List.map_replicate]
    exact ht
  · rw [List.head?_map, h0]
    rfl

/-- 40_base58check R62 on leading zero bytes and a rest. -/
theorem b58enc_zeros_append (c : Params) (k : Nat) {u : ByteString} (hu : u.head? ≠ some 0) :
    b58enc c (List.replicate k 0 ++ u) =
      (List.replicate k 0 ++ (digitsLE 58 (be2nat u)).reverse).map (symbolOf c) := by
  rw [b58enc_eq_map, lz, leadingCount_replicate_append 0 k u hu, be2nat_zeros]

theorem b58dec_of_charDigits {c : Params} {t : ByteString} {ds : List Nat} (h : charDigits c t = some ds) :
    b58dec c t =
      .ok (List.replicate (leadingCount (zeroSymbol c) t) 0 ++ nat2beMin (digitsValue 58 ds)) := by
  rw [b58dec, h]

theorem b58dec_of_not_allSymbols {c : Params} {t : ByteString} (h : ¬ allSymbols c t) :
    b58dec c t = .error .invalidCharacter := by
  rw [b58dec, (charDigits_eq_none_iff c t).2 h]

/-- 40_base58check R63 on the characters of leading zeros and of the other digits. -/
theorem b58dec_map_zeros_append {c : Params} (hc : alphabetWf c.alphabet) (k : Nat) {ds : List Nat}
    (hlt : ∀ d ∈ ds, d < 58) (h0 : ds.head? ≠ some 0) :
    b58dec c ((List.replicate k 0 ++ ds).map (symbolOf c)) =
      .ok (List.replicate k 0 ++ nat2beMin (digitsValue 58 ds)) := by
  have hall : ∀ d ∈ List.replicate k 0 ++ ds, d < 58 := by
    intro d hd
    rcases List.mem_append.1 hd with hzero | hd
    · rw [List.eq_of_mem_replicate hzero]
      norm_num
    · exact hlt d hd
  rw [b58dec_of_charDigits (charDigits_map hc hall), leadingCount_map_symbolOf hc k hlt h0, digitsValue_zeros]

/-! ### The inverse laws (40_base58check R65) -/

/-- 40_base58check R65 (a). -/
theorem b58dec_b58enc {c : Params} (hc : alphabetWf c.alphabet) (s : ByteString) :
    b58dec c (b58enc c s) = .ok s := by
  obtain ⟨u, hs, hu⟩ := eq_replicate_append 0 s
  have hlt : ∀ d ∈ (digitsLE 58 (be2nat u)).reverse, d < 58 := fun d hd =>
    digitsLE_lt (by norm_num) _ d (List.mem_reverse.1 hd)
  rw [hs, b58enc_zeros_append c _ hu, b58dec_map_zeros_append hc _ hlt (head_digitsLE_reverse (by norm_num) _),
    digitsValue_digitsLE (by norm_num), nat2beMin_be2nat hu]

/-- 40_base58check R65 (b). -/
theorem exists_b58dec_of_allSymbols {c : Params} (hc : alphabetWf c.alphabet) {t : ByteString}
    (h : allSymbols c t) : ∃ s, b58dec c t = .ok s ∧ b58enc c s = t := by
  obtain ⟨k, ds, rfl, hlt, h0⟩ := exists_digits_of_allSymbols hc h
  refine ⟨_, b58dec_map_zeros_append hc k hlt h0, ?_⟩
  rw [b58enc_zeros_append c k (head_nat2beMin _), be2nat_nat2beMin, digitsLE_digitsValue (by norm_num) hlt h0]

/-- Settles O33: both ways the leading zeros are kept and the rest has the same value. -/
theorem base58RoundTrip : Obligations.Base58RoundTrip := fun _ hc =>
  ⟨b58dec_b58enc hc, fun _ => exists_b58dec_of_allSymbols hc⟩

/-! ### Lengths (40_base58check R66) -/

theorem length_b58enc (c : Params) (s : ByteString) :
    (b58enc c s).length = lz s + (digitsLE 58 (be2nat s)).length := by
  simp [b58enc_eq_map]

/-- A number other than 0 has `k` digits exactly if it lies between the powers `k - 1` and `k` of the base. -/
theorem digitsLE_length_bounds {base n : Nat} (hb : 2 ≤ base) (hn : n ≠ 0) :
    base ^ ((digitsLE base n).length - 1) ≤ n ∧ n < base ^ (digitsLE base n).length := by
  rw [digitsLE_eq base hb, Nat.length_digits base n hb hn]
  exact ⟨Nat.pow_log_le_self base hn, Nat.lt_pow_succ_log_self hb n⟩

/-- Encoding never shortens: decoding, which gives the string back, does not lengthen. -/
theorem length_le_b58enc {c : Params} (hc : alphabetWf c.alphabet) (s : ByteString) :
    s.length ≤ (b58enc c s).length :=
  length_le_of_b58dec hc (b58dec_b58enc hc s)

/-- Settles O34, by the number of digits of the value after the leading zeros. -/
theorem base58Lengths : Obligations.Base58Lengths := by
  intro c hc
  refine ⟨fun s => ⟨length_le_b58enc hc s, length_b58enc_le c s⟩, fun s h0 => ?_, fun s hne => ?_,
    fun t s => length_le_of_b58dec hc⟩
  · rw [length_b58enc, h0, digitsLE_zero, List.length_nil, Nat.add_zero]
  · exact ⟨_, length_b58enc c s, digitsLE_length_bounds (by norm_num) hne⟩

/-! ### Digits and leading zeros (40_base58check R62, R63) -/

theorem charDigits_b58enc {c : Params} (hc : alphabetWf c.alphabet) (s : ByteString) :
    charDigits c (b58enc c s) = some (List.replicate (lz s) 0 ++ (digitsLE 58 (be2nat s)).reverse) := by
  rw [b58enc_eq_map]
  exact charDigits_map hc (b58enc_digits_lt s)

theorem leadingCount_b58enc {c : Params} (hc : alphabetWf c.alphabet) (s : ByteString) :
    leadingCount (zeroSymbol c) (b58enc c s) = lz s := by
  rw [b58enc_eq_map]
  exact leadingCount_map_symbolOf hc _ (fun d hd => b58enc_digits_lt s d (List.mem_append_right _ hd))
    (head_digitsLE_reverse (by norm_num) _)

theorem b58enc_zeros (c : Params) (k : Nat) :
    b58enc c (List.replicate k 0x00) = List.replicate k (zeroSymbol c) := by
  simpa [zeroSymbol] using b58enc_zeros_append c k (u := []) nofun

/-- Settles O35: the digits of an encoding are known, and `k` zero symbols are the encoding of `k` zero bytes. -/
theorem base58DigitsAndZeros : Obligations.Base58DigitsAndZeros := by
  intro c hc
  refine ⟨fun s => ⟨_, charDigits_b58enc hc s, ?_, leadingCount_b58enc hc s⟩, b58enc_zeros c, fun k => ?_⟩
  · rw [digitsValue_zeros, digitsValue_digitsLE (by norm_num)]
  · rw [← b58enc_zeros c k, b58dec_b58enc hc]

/-! ### Checked decoding (40_base58check R70, R73) -/

theorem b58cdec_of_b58dec_ok {c : Params} {t d : ByteString} (h : b58dec c t = .ok d) :
    b58cdec c t = checkedPayload c d := by
  rw [b58cdec, h]

theorem b58cdec_of_b58dec_error {c : Params} {t : ByteString} {e : CmdError} (h : b58dec c t = .error e) :
    b58cdec c t = .error e := by
  rw [b58cdec, h]

theorem checkedPayload_short {c : Params} {d : ByteString} (h : d.length < 4) :
    checkedPayload c d = .error .lengthError :=
  if_pos h

/-- The verdict on a string of 4 bytes or more: its last 4 bytes are the checksum of the others, or not. -/
theorem checkedPayload_append (c : Params) (p : ByteString) {k : ByteString} (hk : k.length = 4) :
    checkedPayload c (p ++ k) = if cksum c p = k then .ok p else .error .checksumError := by
  have hlen : (p ++ k).length - 4 = p.length := by rw [List.length_append, hk, Nat.add_sub_cancel]
  have hlong : ¬ (p ++ k).length < 4 := by rw [List.length_append, hk]; omega
  simp only [checkedPayload, Config.checksumLength, if_neg hlong, hlen, List.take_left, List.drop_left, ite_not]

/-- The verdict on a payload with its own checksum. -/
theorem checkedPayload_cksum (c : Params) (p : ByteString) : checkedPayload c (p ++ cksum c p) = .ok p := by
  rw [checkedPayload_append c p (length_cksum c p), if_pos rfl]

/-- 40_base58check R73 (a). -/
theorem b58cdec_b58cenc {c : Params} (hc : alphabetWf c.alphabet) (p : ByteString) :
    b58cdec c (b58cenc c p) = .ok p :=
  (b58cdec_of_b58dec_ok (b58dec_b58enc hc _)).trans (checkedPayload_cksum c p)

/-- Settles O36: the alphabet by `b58dec`, the length and the checksum by `checkedPayload`. -/
theorem checkedDecodeVerdict : Obligations.CheckedDecodeVerdict := by
  intro c t
  refine ⟨fun p => ⟨rfl, length_cksum c p⟩, fun h => b58cdec_of_b58dec_error (b58dec_of_not_allSymbols h),
    fun d hd hshort => ?_, fun p k hd hk => ?_⟩
  · rw [b58cdec_of_b58dec_ok hd, checkedPayload_short hshort]
  · rw [b58cdec_of_b58dec_ok hd, checkedPayload_append c p hk]
    exact ⟨fun heq => if_pos heq, fun hne => if_neg hne⟩

/-- Settles O37: plain decoding gives back the payload with its checksum. -/
theorem checkedRoundTrip : Obligations.CheckedRoundTrip := fun _ hc =>
  b58cdec_b58cenc hc

/-! ### The commands (40_base58check R67, R68, R71, R72) -/

/-- A command that passes the capacity test and whose pseudocode answers a result completes with it (30_encoding R58):
the result fits `OBUF`, so its length fits `OLEN`. -/
theorem exec_completes {i : Instr} {s : State} {r : Result} (hfits : s.fits) (h : bodyOf i s = .ok r) :
    ∃ t, exec i s = .next t ∧ CompletesWith s t r.out (r.px.getD s.px) (r.py.getD s.py) := by
  have hlen : r.out.length < 2 ^ 16 :=
    (length_out_le hfits h).trans_lt (show Config.params.obufCap < 2 ^ 16 by decide)
  exact ⟨succeed r s, by rw [exec_eq, runCommand_ok hfits h], completesWith_succeed r s hlen⟩

/-- Settles O38: `B58ENC` has no error of its own. -/
theorem b58encCompletes : Obligations.B58encCompletes := fun _ hfits =>
  exec_completes hfits (i := .b58enc) rfl

/-- Settles O39: a text over the alphabet decodes. -/
theorem b58decCompletes : Obligations.B58decCompletes := by
  intro s hfits hsymbols
  obtain ⟨out, hout, -⟩ := exists_b58dec_of_allSymbols params_wf.alphabet hsymbols
  obtain ⟨t, ht, hdone⟩ := exec_completes hfits (i := .b58dec) (r := bytesResult out) (by rw [bodyOf, hout]; rfl)
  exact ⟨out, t, hout, ht, hdone⟩

/-- Settles O40: `B58CENC` encodes the input with its checksum, and has no error of its own. -/
theorem b58cencCompletes : Obligations.B58cencCompletes := fun _ hfits =>
  exec_completes hfits (i := .b58cenc) rfl

/-- Settles O41: the checksum test passes on a payload with its own checksum. -/
theorem b58cdecCompletes : Obligations.B58cdecCompletes := by
  intro s p hfits hdec
  have hp : b58cdec Config.params (inputBytes s) = .ok p :=
    (b58cdec_of_b58dec_ok hdec).trans (checkedPayload_cksum Config.params p)
  exact exec_completes hfits (i := .b58cdec) (r := bytesResult p) (by rw [bodyOf, hp]; rfl)

end Sys2Proof.Machine

/-! PROOFS, Key/Point codec (spec 41_keypoint): a recovered Y is one of the two values `±y2^((P+1)/4)` modulo `P`. Its
square is `y2` times the Euler power `y2^((P-1)/2)`, so Euler's criterion says whether it is a root of `y2`; of the two
values one is even and one is odd, so the parity says which of them it is. -/

namespace Sys2Proof.Machine

/-! ### The recovered Y as a number (41_keypoint R84) -/

theorem curveRhs_lt {c : Curve} (hc : c.wf) (x : Nat) : curveRhs c x < c.p := Nat.mod_lt _ hc.prime.pos

/-- The right-hand side of the curve equation depends on the residue of X only (41_keypoint R80). -/
theorem curveRhs_mod (c : Curve) (x : Nat) : curveRhs c (x % c.p) = curveRhs c x := by
  have hx : x % c.p ≡ x [MOD c.p] := Nat.mod_modEq x c.p
  exact ((hx.pow 3).add ((hx.pow 2).mul_left c.a)).add_right c.b

theorem curveRoot_lt {c : Curve} (hc : c.wf) (x : Nat) : curveRoot c x < c.p := by
  rw [curveRoot, powMod_eq]
  exact Nat.mod_lt _ hc.prime.pos

theorem curveRoot_eq_zero {c : Curve} (hc : c.wf) {x : Nat} (h : curveRhs c x = 0) : curveRoot c x = 0 := by
  have hexp : (c.p + 1) / 4 ≠ 0 := by have := hc.mod4; omega
  rw [curveRoot, powMod_eq, h, zero_pow hexp, Nat.zero_mod]

/-- The recovered Y is the root or its negative. -/
theorem recy_cases (c : Curve) (x : Nat) (wantOdd : Bool) :
    (curveRoot c x % 2 = 1 ↔ wantOdd = true) ∧ recy c x wantOdd = curveRoot c x ∨
    ¬ (curveRoot c x % 2 = 1 ↔ wantOdd = true) ∧ recy c x wantOdd = c.p - curveRoot c x := by
  have hiff : decide (curveRoot c x % 2 = 1) = wantOdd ↔ (curveRoot c x % 2 = 1 ↔ wantOdd = true) := by
    rw [Bool.eq_iff_iff, decide_eq_true_iff]
  rw [← hiff]
  by_cases h : decide (curveRoot c x % 2 = 1) = wantOdd
  · exact .inl ⟨h, if_pos h⟩
  · exact .inr ⟨h, if_neg h⟩

/-- `P` is odd, so exactly one of the root and its negative has the wanted parity. -/
theorem recy_odd_iff {c : Curve} (hc : c.wf) (x : Nat) (wantOdd : Bool) :
    recy c x wantOdd % 2 = 1 ↔ wantOdd = true := by
  have hp := hc.mod4
  have hlt := curveRoot_lt hc x
  rcases recy_cases c x wantOdd with ⟨h, heq⟩ | ⟨h, heq⟩ <;> rw [heq]
  · exact h
  · cases wantOdd <;> simp at h ⊢ <;> omega

theorem recy_le {c : Curve} (hc : c.wf) (x : Nat) (wantOdd : Bool) : recy c x wantOdd ≤ c.p := by
  rcases recy_cases c x wantOdd with ⟨-, heq⟩ | ⟨-, heq⟩ <;> rw [heq]
  · exact (curveRoot_lt hc x).le
  · exact Nat.sub_le _ _

theorem recy_lt {c : Curve} (hc : c.wf) (x : Nat) (wantOdd : Bool) : recy c x wantOdd < 2 ^ 256 :=
  (recy_le hc x wantOdd).trans_lt hc.size

theorem recy_mod (c : Curve) (x : Nat) (wantOdd : Bool) : recy c (x % c.p) wantOdd = recy c x wantOdd := by
  rw [recy, recy, curveRoot, curveRoot, curveRhs_mod]

/-- Both roots of 0 are 0 modulo `P`: the odd one is written as `P`. -/
theorem recy_of_rhs_zero {c : Curve} (hc : c.wf) {x : Nat} (wantOdd : Bool) (h : curveRhs c x = 0) :
    recy c x wantOdd = if wantOdd then c.p else 0 := by
  rw [recy, curveRoot_eq_zero hc h]
  cases wantOdd <;> rfl

/-- Settles O43: the root is below `P`, and of the root and its negative one is odd. -/
theorem recoveredYParity : Obligations.RecoveredYParity := fun c x wantOdd hc =>
  ⟨recy_odd_iff hc x wantOdd, recy_le hc x wantOdd, recy_lt hc x wantOdd, (recy_mod c x wantOdd).symm⟩

/-! ### The square of the recovered Y, in the field of `P` elements -/

theorem natCast_eq_of_mod_eq {p n m : Nat} (h : n % p = m) : (n : ZMod p) = m := by
  rw [← h, ZMod.natCast_mod]

theorem mod_eq_of_natCast_eq {p n m : Nat} (hm : m < p) (h : (n : ZMod p) = m) : n % p = m :=
  ((ZMod.natCast_eq_natCast_iff' n m p).1 h).trans (Nat.mod_eq_of_lt hm)

/-- A residue is a square in the spec's words exactly if it is one in the field. -/
theorem isSquare_natCast_iff {p r : Nat} [NeZero p] (hr : r < p) :
    IsSquare (r : ZMod p) ↔ ∃ z, r = z ^ 2 % p := by
  constructor
  · rintro ⟨z, hz⟩
    refine ⟨z.val, (mod_eq_of_natCast_eq hr ?_).symm⟩
    rw [Nat.cast_pow, ZMod.natCast_zmod_val, hz, pow_two]
  · rintro ⟨z, hz⟩
    exact ⟨z, by rw [← pow_two, ← Nat.cast_pow, natCast_eq_of_mod_eq hz.symm]⟩

/-- `2 * ((P+1)/4) = (P-1)/2 + 1`, as `P` is 3 modulo 4. -/
theorem sq_curveRoot_natCast {c : Curve} (hc : c.wf) (x : Nat) :
    (curveRoot c x : ZMod c.p) ^ 2 = (curveRhs c x : ZMod c.p) ^ (c.p / 2) * curveRhs c x := by
  have hexp : (c.p + 1) / 4 * 2 = c.p / 2 + 1 := by have := hc.mod4; omega
  rw [curveRoot, powMod_eq, ZMod.natCast_mod, Nat.cast_pow, ← pow_mul, hexp, pow_succ]

theorem sq_recy_natCast {c : Curve} (hc : c.wf) (x : Nat) (wantOdd : Bool) :
    (recy c x wantOdd : ZMod c.p) ^ 2 = (curveRhs c x : ZMod c.p) ^ (c.p / 2) * curveRhs c x := by
  rw [← sq_curveRoot_natCast hc]
  rcases recy_cases c x wantOdd with ⟨-, heq⟩ | ⟨-, heq⟩ <;> rw [heq]
  rw [Nat.cast_sub (curveRoot_lt hc x).le, ZMod.natCast_self, zero_sub, neg_sq]

theorem natCast_curveRhs_ne_zero {c : Curve} (hc : c.wf) {x : Nat} (h : curveRhs c x ≠ 0) :
    (curveRhs c x : ZMod c.p) ≠ 0 := fun h0 =>
  h (Nat.eq_zero_of_dvd_of_lt ((ZMod.natCast_eq_zero_iff _ _).1 h0) (curveRhs_lt hc x))

/-- First row of the table of 41_keypoint R84: by Euler's criterion the Euler power of a square is 1. -/
theorem sq_recy_of_square {c : Curve} (hc : c.wf) {x : Nat} (wantOdd : Bool) (h0 : curveRhs c x ≠ 0)
    (hsq : ∃ z, curveRhs c x = z ^ 2 % c.p) : recy c x wantOdd ^ 2 % c.p = curveRhs c x := by
  have : Fact c.p.Prime := ⟨hc.prime⟩
  have heuler : (curveRhs c x : ZMod c.p) ^ (c.p / 2) = 1 :=
    (ZMod.euler_criterion c.p (natCast_curveRhs_ne_zero hc h0)).1
      ((isSquare_natCast_iff (curveRhs_lt hc x)).2 hsq)
  apply mod_eq_of_natCast_eq (curveRhs_lt hc x)
  rw [Nat.cast_pow, sq_recy_natCast hc, heuler, one_mul]

/-- Second row of the table: the Euler power of a number that is no square is -1. -/
theorem sq_recy_of_not_square {c : Curve} (hc : c.wf) {x : Nat} (wantOdd : Bool) (h0 : curveRhs c x ≠ 0)
    (hsq : ¬ ∃ z, curveRhs c x = z ^ 2 % c.p) : recy c x wantOdd ^ 2 % c.p = c.p - curveRhs c x := by
  have : Fact c.p.Prime := ⟨hc.prime⟩
  have hne := natCast_curveRhs_ne_zero hc h0
  have heuler : (curveRhs c x : ZMod c.p) ^ (c.p / 2) = -1 :=
    (ZMod.pow_div_two_eq_neg_one_or_one c.p hne).resolve_left fun h1 =>
      hsq ((isSquare_natCast_iff (curveRhs_lt hc x)).1 ((ZMod.euler_criterion c.p hne).2 h1))
  apply mod_eq_of_natCast_eq (Nat.sub_lt hc.prime.pos (Nat.pos_of_ne_zero h0))
  rw [Nat.cast_pow, sq_recy_natCast hc, heuler, Nat.cast_sub (curveRhs_lt hc x).le, ZMod.natCast_self,
    zero_sub, neg_one_mul]

/-- A recovered root of a non-zero number is neither 0 nor `P`. -/
theorem recy_bounds_of_square {c : Curve} (hc : c.wf) {x : Nat} (wantOdd : Bool) (h0 : curveRhs c x ≠ 0)
    (hsq : ∃ z, curveRhs c x = z ^ 2 % c.p) : 1 ≤ recy c x wantOdd ∧ recy c x wantOdd ≤ c.p - 1 := by
  have hroot := sq_recy_of_square hc wantOdd h0 hsq
  have hzero : recy c x wantOdd ≠ 0 := fun h => h0 (by rw [← hroot, h]; simp)
  have hp : recy c x wantOdd ≠ c.p := fun h => h0 (by rw [← hroot, h, pow_two, Nat.mul_mod_right])
  have hle := recy_le hc x wantOdd
  omega

/-- Settles O44: Euler's criterion for the first two rows; the root of 0 is 0. -/
theorem recoveredYCases : Obligations.RecoveredYCases := by
  intro c x wantOdd hc
  refine ⟨fun hsq h0 => ⟨sq_recy_of_square hc wantOdd h0 hsq, recy_bounds_of_square hc wantOdd h0 hsq⟩,
    fun hsq => ?_, recy_of_rhs_zero hc wantOdd⟩
  have h0 : curveRhs c x ≠ 0 := fun h0 => hsq ⟨0, by rw [h0]; simp⟩
  have hroot := sq_recy_of_not_square hc wantOdd h0 hsq
  refine ⟨hroot, ?_⟩
  have hp := hc.mod4
  omega

/-- Two numbers between 1 and `p - 1` with the same square and the same parity are equal: the other root of that
square is `p` minus the one, which has the other parity. -/
theorem eq_of_sq_eq_of_parity {p a b : Nat} (hp : p.Prime) (hodd : p % 2 = 1) (ha : 1 ≤ a) (ha' : a < p)
    (hb' : b < p) (hsq : a ^ 2 % p = b ^ 2 % p) (hpar : a % 2 = b % 2) : a = b := by
  have : Fact p.Prime := ⟨hp⟩
  have hcast : (a : ZMod p) ^ 2 = (b : ZMod p) ^ 2 := by
    rw [← Nat.cast_pow, ← Nat.cast_pow]
    exact (ZMod.natCast_eq_natCast_iff' _ _ _).2 hsq
  rcases sq_eq_sq_iff_eq_or_eq_neg.1 hcast with h | h
  · exact (Nat.mod_eq_of_lt ha').symm.trans (mod_eq_of_natCast_eq hb' h)
  · have hdvd : p ∣ a + b := by
      rw [← ZMod.natCast_eq_zero_iff, Nat.cast_add, h, neg_add_cancel]
    have hsum : a + b = p := Nat.eq_of_dvd_of_lt_two_mul (by omega) hdvd (by omega)
    omega

/-- The Y of a curve point is recovered from X and the parity of Y. -/
theorem recy_of_on_curve {c : Curve} (hc : c.wf) {x y : Nat} (hy : 1 ≤ y) (hy' : y ≤ c.p - 1)
    (hcurve : y ^ 2 % c.p = curveRhs c x) : y = recy c x (decide (y % 2 = 1)) := by
  have hpos := hc.prime.pos
  have hp := hc.mod4
  have hsq : ∃ z, curveRhs c x = z ^ 2 % c.p := ⟨y, hcurve.symm⟩
  have h0 : curveRhs c x ≠ 0 := fun h0 => by
    have hdvd : c.p ∣ y := hc.prime.dvd_of_dvd_pow (Nat.dvd_of_mod_eq_zero (hcurve.trans h0))
    exact absurd (Nat.le_of_dvd hy hdvd) (by omega)
  obtain ⟨-, hle⟩ := recy_bounds_of_square hc (decide (y % 2 = 1)) h0 hsq
  have hodd : recy c x (decide (y % 2 = 1)) % 2 = 1 ↔ y % 2 = 1 := by rw [recy_odd_iff hc, decide_eq_true_iff]
  exact eq_of_sq_eq_of_parity hc.prime (by omega) hy (by omega) (by omega)
    (hcurve.trans (sq_recy_of_square hc _ h0 hsq).symm) (by omega)

/-! ### Public-key bytes (41_keypoint R82, R86) -/

theorem pt2pk_compressed (x y : Nat) :
    pt2pk x y true = (if y % 2 = 0 then 0x02 else 0x03) :: nat2be x 32 := by
  rcases Nat.mod_two_eq_zero_or_one y with h | h <;> simp [pt2pk, h]

theorem pt2pk_uncompressed (x y : Nat) : pt2pk x y false = 0x04 :: (nat2be x 32 ++ nat2be y 32) := rfl

/-- A coordinate fits its field of 32 bytes. -/
theorem be2nat_nat2be_coordinate {n : Nat} (h : n < 2 ^ 256) : be2nat (nat2be n 32) = n :=
  be2nat_nat2be n 32 (h.trans_eq (by norm_num))

theorem be2nat_lt_of_coordinate {b : ByteString} (h : b.length = 32) : be2nat b < 2 ^ 256 := by
  have := be2nat_lt b
  rw [h] at this
  exact this.trans_eq (by norm_num)

theorem pk2pt_uncompressed (c : Curve) {body : ByteString} (h : body.length = 64) :
    pk2pt c (0x04 :: body) = .ok (be2nat (body.take 32), be2nat (body.drop 32)) := by
  simp [pk2pt, h]

theorem pk2pt_compressed (c : Curve) {m : Byte} {body : ByteString} (hm : m = 0x02 ∨ m = 0x03)
    (h : body.length = 32) : pk2pt c (m :: body) = .ok (be2nat body, recy c (be2nat body) (decide (m = 0x03))) := by
  rcases hm with rfl | rfl <;> simp [pk2pt, h]

/-- Settles O42: the fields are the fixed-width forms of the coordinates. -/
theorem publicKeyLayout : Obligations.PublicKeyLayout := fun x y hx hy =>
  ⟨⟨nat2be x 32, pt2pk_compressed x y, length_nat2be x 32, be2nat_nat2be_coordinate hx⟩,
    nat2be x 32, nat2be y 32, pt2pk_uncompressed x y, length_nat2be x 32, length_nat2be y 32,
    be2nat_nat2be_coordinate hx, be2nat_nat2be_coordinate hy⟩

theorem pk2pt_pt2pk_uncompressed (c : Curve) {x y : Nat} (hx : x < 2 ^ 256) (hy : y < 2 ^ 256) :
    pk2pt c (pt2pk x y false) = .ok (x, y) := by
  have htake : (nat2be x 32 ++ nat2be y 32).take 32 = nat2be x 32 := List.take_left' (length_nat2be x 32)
  have hdrop : (nat2be x 32 ++ nat2be y 32).drop 32 = nat2be y 32 := List.drop_left' (length_nat2be x 32)
  rw [pt2pk_uncompressed, pk2pt_uncompressed c (by simp), htake, hdrop, be2nat_nat2be_coordinate hx,
    be2nat_nat2be_coordinate hy]

/-- The compressed form keeps of Y its parity only. -/
theorem pk2pt_pt2pk_compressed (c : Curve) {x : Nat} (y : Nat) (hx : x < 2 ^ 256) :
    pk2pt c (pt2pk x y true) = .ok (x, recy c x (decide (y % 2 = 1))) := by
  rw [pt2pk_compressed]
  rcases Nat.mod_two_eq_zero_or_one y with h | h <;>
    simp [h, pk2pt_compressed c, be2nat_nat2be_coordinate hx]

theorem pk2pt_pt2pk_of_on_curve {c : Curve} (hc : c.wf) {x y : Nat} (hx : x < 2 ^ 256) (hy : 1 ≤ y)
    (hy' : y ≤ c.p - 1) (hcurve : y ^ 2 % c.p = curveRhs c x) : pk2pt c (pt2pk x y true) = .ok (x, y) := by
  rw [pk2pt_pt2pk_compressed c y hx, ← recy_of_on_curve hc hy hy' hcurve]

/-- Settles O45: parsing the compressed form gives X and the Y recovered with the parity of Y. -/
theorem pointRoundTrip : Obligations.PointRoundTrip := by
  intro c x y hc hx hy
  refine ⟨pk2pt_pt2pk_uncompressed c hx hy, ?_, pk2pt_pt2pk_of_on_curve hc hx⟩
  rw [pk2pt_pt2pk_compressed c y hx, Except.ok.injEq, Prod.mk.injEq, eq_self_iff_true, true_and, eq_comm]

/-! ### The commands (41_keypoint R83, R85, R88) -/

/-- A completed command leaves the point register as it stands in the next state. -/
theorem CompletesWith.point_self {s t : State} {out : ByteString} {px py : Word256}
    (h : CompletesWith s t out px py) : CompletesWith s t out t.px t.py :=
  { h with px := rfl, py := rfl }

/-- Settles O46: `PT2PK` has no error of its own. -/
theorem pt2pkCompletes : Obligations.Pt2pkCompletes := by
  intro c s hfits
  obtain ⟨t, ht, hdone⟩ := exec_completes hfits (i := .pt2pk c) rfl
  exact ⟨t, ht, hdone, hdone.olen.trans (length_pt2pk _ _ c)⟩

/-- Settles O47: `RECY` has no error of its own, and the recovered Y fits `PY`. -/
theorem recyCompletes : Obligations.RecyCompletes := by
  intro c s hfits
  obtain ⟨t, ht, hdone⟩ := exec_completes hfits (i := .recy c) rfl
  have hpx : t.px = s.px := hdone.px
  refine ⟨t, ht, hpx ▸ hdone.point_self, ?_⟩
  rw [hdone.py]
  exact toNat_ofNat_of_lt (recy_lt params_wf.curve _ c)

/-- `PK2PT` on bytes that parse completes with the parsed point (41_keypoint R88). -/
theorem exec_pk2pt_completes {s : State} {x y : Nat} (hfits : s.fits)
    (h : pk2pt Config.params.curve (inputBytes s) = .ok (x, y)) :
    ∃ t, exec .pk2pt s = .next t ∧ CompletesWith s t [] (BitVec.ofNat 256 x) (BitVec.ofNat 256 y) :=
  exec_completes hfits (i := .pk2pt) (r := pointResult (x, y) []) (by rw [bodyOf, h]; rfl)

/-- A parsed point whose coordinates fit the point register is what the register holds. -/
theorem exec_pk2pt_point {s : State} {x y : Nat} (hfits : s.fits)
    (h : pk2pt Config.params.curve (inputBytes s) = .ok (x, y)) (hx : x < 2 ^ 256) (hy : y < 2 ^ 256) :
    ∃ t, exec .pk2pt s = .next t ∧ CompletesWith s t [] t.px t.py ∧ t.px.toNat = x ∧ t.py.toNat = y := by
  obtain ⟨t, ht, hdone⟩ := exec_pk2pt_completes hfits h
  exact ⟨t, ht, hdone.point_self, by rw [hdone.px, toNat_ofNat_of_lt hx], by rw [hdone.py, toNat_ofNat_of_lt hy]⟩

/-- Settles O48: both forms parse, and the values of 32 bytes and the recovered Y fit the point register. -/
theorem pk2ptCompletes : Obligations.Pk2ptCompletes := by
  intro s m body hfits hin
  constructor
  · rintro rfl hlen
    exact exec_pk2pt_point hfits (by rw [hin, pk2pt_uncompressed _ hlen])
      (be2nat_lt_of_coordinate (by rw [List.length_take, hlen]; rfl))
      (be2nat_lt_of_coordinate (by rw [List.length_drop, hlen]))
  · intro hm hlen
    exact exec_pk2pt_point hfits (by rw [hin, pk2pt_compressed _ hm hlen]) (be2nat_lt_of_coordinate hlen)
      (recy_lt params_wf.curve _ _)

/-- Settles O49: the copied input is the compressed form of a curve point, 33 bytes, which parses to the point. -/
theorem compressThenParse : Obligations.CompressThenParse := by
  intro s hfits hy hy' hcurve
  obtain ⟨t, ht, hdone, holen⟩ := pt2pkCompletes true s hfits
  refine ⟨t, ht, fun u ⟨hilen, hin⟩ => ?_⟩
  have hufits : u.fits := by
    rw [State.fits, hilen, holen]
    decide
  have hparse : pk2pt Config.params.curve (inputBytes u) = .ok (s.px.toNat, s.py.toNat) := by
    rw [hin, hdone.output, pk2pt_pt2pk_of_on_curve params_wf.curve s.px.isLt hy hy' hcurve]
  obtain ⟨v, hv, hvdone⟩ := exec_pk2pt_completes hufits hparse
  exact ⟨v, hv, by simpa using hvdone⟩

end Sys2Proof.Machine

/-! PROOFS, derivation glue (spec 42_derivation): what the two codecs and the collaborators compose to. A WIF string is
the checked encoding of the version byte, the secret and at most one marker byte, and checked decoding gives that
payload back, of which `WIFDEC` takes bytes 1 to 32. -/

namespace Sys2Proof.Machine

/-! ### The input of a command with `ILEN` = 32 -/

theorem fits_of_ilen_eq {s : State} (h : s.ilen = 32) : s.fits := by
  rw [State.fits, h]
  decide

theorem length_inputBytes_of_ilen_eq {s : State} (h : s.ilen = 32) : (inputBytes s).length = 32 := by
  rw [length_inputBytes, h]
  rfl

/-- `OLEN` after a completed command, as the register's word. -/
theorem CompletesWith.olen_eq {s t : State} {out : ByteString} {px py : Word256} {n : Word16}
    (h : CompletesWith s t out px py) (hlen : out.length = n.toNat) : t.olen = n :=
  BitVec.eq_of_toNat_eq (h.olen.trans hlen)

/-! ### The address (42_derivation R97) -/

/-- A zero byte in front is a zero symbol in front (40_base58check R62). -/
theorem b58enc_zero_cons (c : Params) (s : ByteString) : b58enc c (0x00 :: s) = zeroSymbol c :: b58enc c s := by
  have hlz : lz (0x00 :: s) = lz s + 1 := by simp [lz, leadingCount]
  have hval : be2nat (0x00 :: s) = be2nat s := be2nat_zeros 1 s
  rw [b58enc, b58enc, hlz, hval]
  rfl

theorem head_addressOf (c : Params) (b : ByteString) : (addressOf c b).head? = some (zeroSymbol c) := by
  rw [addressOf, b58cenc, List.cons_append, b58enc_zero_cons, List.head?_cons]

/-- The checksum lengthens the payload by 4 bytes, and encoding does not shorten it (40_base58check R66, R69). -/
theorem length_le_b58cenc {c : Params} (hc : alphabetWf c.alphabet) (p : ByteString) :
    p.length + 4 ≤ (b58cenc c p).length := by
  have := length_le_b58enc hc (p ++ cksum c p)
  rwa [List.length_append, length_cksum] at this

theorem le_length_addressOf {c : Params} (hc : alphabetWf c.alphabet) (b : ByteString) :
    25 ≤ (addressOf c b).length := by
  have := length_le_b58cenc hc (Config.addressVersion :: hash160 c b)
  rwa [List.length_cons, length_hash160] at this

/-! ### WIF strings (42_derivation R98, R99) -/

/-- Both flags of 42_derivation R98 in one: the marker is the tail of the payload. -/
theorem wifOf_of_length (c : Params) {secret : ByteString} (h : secret.length = 32) (compressed : Bool) :
    wifOf c secret compressed = .ok (b58cenc c ([0x80] ++ secret ++ if compressed then [0x01] else [])) := by
  rw [wifOf, if_neg (not_not.2 h)]
  cases compressed
  · simp
  · rfl

/-- A payload of 33 or 34 bytes holds its secret at bytes 1 to 32, between any bytes. -/
theorem secretOfPayload_append (v : Byte) {secret tail : ByteString} (hsecret : secret.length = 32)
    (htail : tail.length ≤ 1) : secretOfPayload (v :: secret ++ tail) = .ok secret := by
  have htake : ((v :: secret ++ tail).drop 1).take 32 = secret := List.take_left' hsecret
  have hlen : (v :: secret ++ tail).length = 33 + tail.length := by
    rw [List.length_append, List.length_cons, hsecret]
  rw [secretOfPayload, htake, hlen]
  rcases Nat.le_one_iff_eq_zero_or_eq_one.1 htail with h | h <;> rw [h] <;> rfl

theorem secretOfWif_of_b58cdec {c : Params} {t p : ByteString} (h : b58cdec c t = .ok p) :
    secretOfWif c t = secretOfPayload p := by
  rw [secretOfWif, h]

/-- 42_derivation R101 on strings: decoding gives back the payload, whose tail is the marker or empty. -/
theorem secretOfWif_of_wifOf {c : Params} (hc : alphabetWf c.alphabet) {secret w : ByteString} {compressed : Bool}
    (hsecret : secret.length = 32) (h : wifOf c secret compressed = .ok w) : secretOfWif c w = .ok secret := by
  obtain rfl := Except.ok.inj ((wifOf_of_length c hsecret compressed).symm.trans h)
  have htail : (if compressed then [0x01] else [] : ByteString).length ≤ 1 := by cases compressed <;> decide
  exact (secretOfWif_of_b58cdec (b58cdec_b58cenc hc _)).trans (secretOfPayload_append 0x80 hsecret htail)

/-! ### The commands (42_derivation R96 to R100) -/

/-- Settles O50: `HASH160` has no error of its own, and its digest is 20 bytes. -/
theorem hash160Completes : Obligations.Hash160Completes := by
  intro s hfits
  obtain ⟨t, ht, hdone⟩ := exec_completes hfits (i := .hash160) rfl
  exact ⟨t, ht, hdone.olen_eq (length_hash160 ..), hdone⟩

/-- Settles O51: `ADDR` has no error of its own; its version byte is 0, so the address starts with the zero symbol. -/
theorem addrCompletes : Obligations.AddrCompletes := by
  intro s hfits
  obtain ⟨t, ht, hdone⟩ := exec_completes hfits (i := .addr) rfl
  refine ⟨t, ht, hdone, ?_, ?_, ?_⟩
  · rw [hdone.output]
    exact head_addressOf ..
  · rw [hdone.olen]
    exact le_length_addressOf params_wf.alphabet _
  · rw [hdone.olen]
    exact length_addressOf_le ..

/-- Settles O52: the length test is the only one `WIFENC` makes. -/
theorem wifencCompletes : Obligations.WifencCompletes := by
  intro c s hilen
  exact exec_completes (fits_of_ilen_eq hilen) (i := .wifenc c) (r := bytesResult _)
    (by rw [bodyOf, wifOf_of_length _ (length_inputBytes_of_ilen_eq hilen)]; rfl)

/-- `WIFDEC` on a text that holds a secret completes with it (42_derivation R99). -/
theorem exec_wifdec_completes {s : State} {secret : ByteString} (hfits : s.fits)
    (h : secretOfWif Config.params (inputBytes s) = .ok secret) :
    ∃ t, exec .wifdec s = .next t ∧ CompletesWith s t secret s.px s.py ∧ t.olen = 32 := by
  obtain ⟨t, ht, hdone⟩ := exec_completes hfits (i := .wifdec) (r := bytesResult secret) (by rw [bodyOf, h]; rfl)
  exact ⟨t, ht, hdone, hdone.olen_eq (length_of_secretOfWif h)⟩

/-- Settles O53: the checksum test passes, and the secret is taken between the two bytes, whatever they are. -/
theorem wifdecCompletes : Obligations.WifdecCompletes := by
  intro s v secret tail hfits hsecret htail hdec
  have hpayload : b58cdec Config.params (inputBytes s) = .ok (v :: secret ++ tail) :=
    (b58cdec_of_b58dec_ok hdec).trans (checkedPayload_cksum ..)
  exact exec_wifdec_completes hfits
    ((secretOfWif_of_b58cdec hpayload).trans (secretOfPayload_append v hsecret htail))

/-- Settles O54: the copied text fits `IBUF`, and checked decoding gives back the payload that was encoded. -/
theorem wifRoundTrip : Obligations.WifRoundTrip := by
  intro c s hilen
  have hsecret : (inputBytes s).length = 32 := length_inputBytes_of_ilen_eq hilen
  have hwif := wifOf_of_length Config.params hsecret c
  obtain ⟨t, ht, hdone⟩ := wifencCompletes c s hilen
  refine ⟨t, ht, hdone.noError, fun u ⟨hulen, huin⟩ => ?_⟩
  have hufits : u.fits := by
    rw [State.fits, hulen, hdone.olen]
    exact (length_le_of_wifOf hwif).trans (by decide)
  have hback : secretOfWif Config.params (inputBytes u) = .ok (inputBytes s) := by
    rw [huin, hdone.output]
    exact secretOfWif_of_wifOf params_wf.alphabet hsecret hwif
  obtain ⟨v, hv, hvdone, hvolen⟩ := exec_wifdec_completes hufits hback
  exact ⟨v, hv, hvolen, hvdone⟩

/-- Settles O55: the length test is the only one `SEC2PK` makes, and a coordinate of the collaborator fits its
register. -/
theorem sec2pkCompletes : Obligations.Sec2pkCompletes := by
  intro c s hilen
  obtain ⟨t, ht, hdone⟩ := exec_completes (fits_of_ilen_eq hilen) (i := .sec2pk c) (r := pointResult _ _)
    (by rw [bodyOf, pointOfSecret, if_neg (not_not.2 (length_inputBytes_of_ilen_eq hilen))]; rfl)
  rw [pointResult_px, pointResult_py] at hdone
  simp only [Option.getD_some, BitVec.ofNat_toNat, BitVec.setWidth_eq] at hdone
  exact ⟨t, ht, hdone, hdone.olen.trans (length_pt2pk ..)⟩

end Sys2Proof.Machine

/-! PROOFS, errors (spec 60_exceptions R111 to R119): when each pure function answers each error, the tests in the order
of R119; from these when a command's pseudocode does, which is the table `errorCause`; and a command that passes the
capacity test completes with an error exactly if its pseudocode answers that error. -/

namespace Sys2Proof.Machine

/-! ### Which error a completion carries -/

theorem code_injective : Function.Injective CmdError.code := by
  intro e₁ e₂ h
  cases e₁ <;> cases e₂ <;> simp [CmdError.code] at h ⊢

theorem code_ne_zero (e : CmdError) : e.code ≠ 0 := by
  cases e <;> decide

theorem failsWith_raise_iff {e e' : CmdError} {s : State} : FailsWith s (raise e s) e' ↔ e = e' := by
  refine ⟨fun h => code_injective ?_, fun h => h ▸ failsWith_raise e s⟩
  rw [← h.err, raise_status, statusErr_failed]

theorem not_failsWith_succeed (r : Result) (s : State) (e : CmdError) : ¬ FailsWith s (succeed r s) e := by
  intro h
  have herr := h.err
  rw [succeed_status, statusErr_completed] at herr
  exact code_ne_zero e herr.symm

/-- Past the capacity test a command completes with an error of its pseudocode and with no other (30_encoding R57). -/
theorem failsWith_runCommand_iff {body : State → Except CmdError Result} {s : State} {e : CmdError}
    (he : e ≠ .capacityError) : FailsWith s (runCommand body s) e ↔ s.fits ∧ body s = .error e := by
  rcases runCommand_cases body s with ⟨hcap, heq⟩ | ⟨hfits, e', hbody, heq⟩ | ⟨hfits, r, hbody, heq⟩
  · rw [heq, failsWith_raise_iff]
    exact ⟨fun h => absurd h.symm he, fun ⟨hfits, _⟩ => absurd hfits (Nat.not_le.2 hcap)⟩
  · rw [heq, failsWith_raise_iff, hbody, Except.error.injEq, and_iff_right hfits]
  · rw [heq, hbody]
    exact ⟨fun h => absurd h (not_failsWith_succeed r s e), fun ⟨_, h⟩ => nomatch h⟩

/-! ### When the pure functions answer an error -/

theorem map_eq_error_iff {ε α β : Type} {f : α → β} {x : Except ε α} {e : ε} :
    x.map f = .error e ↔ x = .error e := by
  cases x with
  | error e' => simp [Except.map]
  | ok a => simp [Except.map]

/-- Two functions in a row fail if the first fails, or the second on its result. -/
theorem bind_eq_error_iff {ε α β : Type} {f : α → Except ε β} {x : Except ε α} {e : ε} :
    x.bind f = .error e ↔ x = .error e ∨ ∃ a, x = .ok a ∧ f a = .error e := by
  cases x with
  | error e' => simp [Except.bind]
  | ok a => simp [Except.bind]

/-- 60_exceptions R112. -/
theorem b58dec_eq_error_iff {c : Params} {t : ByteString} {e : CmdError} :
    b58dec c t = .error e ↔ e = .invalidCharacter ∧ ∃ ch ∈ t, symbolIndex c ch = none := by
  rw [← charDigits_eq_none]
  cases h : charDigits c t with
  | none => simp [b58dec, h, eq_comm (b := e)]
  | some ds => simp [b58dec, h]

/-- A decoded string is too short, or its last 4 bytes are not the checksum of the others (40_base58check R70). -/
theorem checkedPayload_eq_error_iff {c : Params} {d : ByteString} {e : CmdError} :
    checkedPayload c d = .error e ↔ (e = .lengthError ∧ d.length < 4) ∨
      (e = .checksumError ∧ ∃ p k, d = p ++ k ∧ k.length = 4 ∧ cksum c p ≠ k) := by
  by_cases hshort : d.length < 4
  · have hno : ¬ ∃ p k, d = p ++ k ∧ k.length = 4 ∧ cksum c p ≠ k := by
      rintro ⟨p, k, rfl, hk, -⟩
      rw [List.length_append] at hshort
      omega
    rw [checkedPayload_short hshort, Except.error.injEq, eq_comm]
    simp only [hshort, hno, and_true, and_false, or_false]
  · obtain ⟨p, k, rfl, hk⟩ : ∃ p k, d = p ++ k ∧ k.length = 4 :=
      ⟨_, _, (List.take_append_drop (d.length - 4) d).symm, by rw [List.length_drop]; omega⟩
    have hsplit : (∃ p' k', p ++ k = p' ++ k' ∧ k'.length = 4 ∧ cksum c p' ≠ k') ↔ cksum c p ≠ k := by
      refine ⟨?_, fun hne => ⟨p, k, rfl, hk, hne⟩⟩
      rintro ⟨p', k', happ, hk', hne⟩
      obtain ⟨rfl, rfl⟩ := List.append_inj' happ (hk.trans hk'.symm)
      exact hne
    rw [checkedPayload_append c p hk, hsplit]
    split <;> simp [*, eq_comm (b := e)]

/-- 60_exceptions R112, R113 and R114 (a), for the two commands that decode with a checksum. -/
theorem b58cdec_eq_error_iff {c : Params} {t : ByteString} {e : CmdError} :
    b58cdec c t = .error e ↔ (e = .invalidCharacter ∧ ∃ ch ∈ t, symbolIndex c ch = none) ∨
      (e = .lengthError ∧ ∃ d, b58dec c t = .ok d ∧ d.length < 4) ∨
      (e = .checksumError ∧ ∃ p k, b58dec c t = .ok (p ++ k) ∧ k.length = 4 ∧ cksum c p ≠ k) := by
  have hbind : b58cdec c t = (b58dec c t).bind (checkedPayload c) := by
    unfold b58cdec
    cases b58dec c t <;> rfl
  rw [hbind, bind_eq_error_iff, b58dec_eq_error_iff]
  simp only [checkedPayload_eq_error_iff]
  refine or_congr_right ⟨?_, ?_⟩
  · rintro ⟨d, hd, ⟨he, hshort⟩ | ⟨he, p, k, rfl, hk, hne⟩⟩
    · exact .inl ⟨he, d, hd, hshort⟩
    · exact .inr ⟨he, p, k, hd, hk, hne⟩
  · rintro (⟨he, d, hd, hshort⟩ | ⟨he, p, k, hd, hk, hne⟩)
    · exact ⟨d, hd, .inl ⟨he, hshort⟩⟩
    · exact ⟨_, hd, .inr ⟨he, p, k, rfl, hk, hne⟩⟩

theorem secretOfPayload_eq_error_iff {p : ByteString} {e : CmdError} :
    secretOfPayload p = .error e ↔ e = .invalidFormatError ∧ p.length ≠ 33 ∧ p.length ≠ 34 := by
  unfold secretOfPayload
  split
  · simp [*]
  · split <;> simp [*, eq_comm (b := e)]

/-- `WIFDEC` adds to the errors of checked decoding its own on the payload (60_exceptions R115 (b)). -/
theorem secretOfWif_eq_error_iff {c : Params} {t : ByteString} {e : CmdError} :
    secretOfWif c t = .error e ↔ b58cdec c t = .error e ∨
      (e = .invalidFormatError ∧ ∃ p, b58cdec c t = .ok p ∧ p.length ≠ 33 ∧ p.length ≠ 34) := by
  have hbind : secretOfWif c t = (b58cdec c t).bind secretOfPayload := by
    unfold secretOfWif
    cases b58cdec c t <;> rfl
  rw [hbind, bind_eq_error_iff]
  simp only [secretOfPayload_eq_error_iff, and_left_comm, exists_and_left]

/-- 60_exceptions R114 (b). -/
theorem wifOf_eq_error_iff {c : Params} {secret : ByteString} {compressed : Bool} {e : CmdError} :
    wifOf c secret compressed = .error e ↔ e = .lengthError ∧ secret.length ≠ 32 := by
  by_cases h : secret.length = 32
  · simp [wifOf_of_length c h, h]
  · simp [wifOf, h, eq_comm (b := e)]

/-- 60_exceptions R114 (c). -/
theorem pointOfSecret_eq_error_iff {c : Params} {secret : ByteString} {e : CmdError} :
    pointOfSecret c secret = .error e ↔ e = .lengthError ∧ secret.length ≠ 32 := by
  by_cases h : secret.length = 32
  · simp [pointOfSecret, h]
  · simp [pointOfSecret, h, eq_comm (b := e)]

/-- The marker fits and the length does not (60_exceptions R114 (d)); likewise `pk2pt_compressed_error`. -/
theorem pk2pt_uncompressed_error (c : Curve) {body : ByteString} (h : body.length ≠ 64) :
    pk2pt c (0x04 :: body) = .error .lengthError := by
  have hlen : (0x04 :: body).length ≠ 65 := fun heq => h (Nat.succ.inj heq)
  rw [pk2pt, if_pos rfl, if_pos hlen]

theorem pk2pt_compressed_error (c : Curve) {m : Byte} {body : ByteString} (hm : m = 0x02 ∨ m = 0x03)
    (h : body.length ≠ 32) : pk2pt c (m :: body) = .error .lengthError := by
  have h4 : m ≠ 0x04 := by rcases hm with rfl | rfl <;> decide
  have hlen : (m :: body).length ≠ 33 := fun heq => h (Nat.succ.inj heq)
  rw [pk2pt, if_neg h4, if_pos hm, if_pos hlen]

/-- 60_exceptions R115 (a), whatever the length. -/
theorem pk2pt_unknown_marker (c : Curve) {m : Byte} (body : ByteString) (h4 : m ≠ 0x04)
    (h23 : ¬ (m = 0x02 ∨ m = 0x03)) : pk2pt c (m :: body) = .error .invalidFormatError := by
  rw [pk2pt, if_neg h4, if_neg h23]

/-- 60_exceptions R114 (d) and R115 (a): the marker is tested before the length. -/
theorem pk2pt_eq_error_iff {c : Curve} {b : ByteString} {e : CmdError} :
    pk2pt c b = .error e ↔
      (e = .lengthError ∧ (b.length = 0 ∨ (b.head? = some 0x04 ∧ b.length ≠ 65) ∨
        ((b.head? = some 0x02 ∨ b.head? = some 0x03) ∧ b.length ≠ 33))) ∨
      (e = .invalidFormatError ∧ ∃ m, b.head? = some m ∧ m ≠ 0x02 ∧ m ≠ 0x03 ∧ m ≠ 0x04) := by
  cases b with
  | nil => simp [pk2pt, eq_comm (b := e)]
  | cons m body =>
    by_cases h4 : m = 0x04
    · by_cases hlen : body.length = 64
      · rw [h4, pk2pt_uncompressed c hlen]
        simp [hlen]
      · rw [h4, pk2pt_uncompressed_error c hlen]
        simp [hlen, eq_comm (b := e)]
    · by_cases h23 : m = 0x02 ∨ m = 0x03
      · by_cases hlen : body.length = 32
        · rw [pk2pt_compressed c h23 hlen]
          rcases h23 with rfl | rfl <;> simp [hlen]
        · rw [pk2pt_compressed_error c h23 hlen]
          rcases h23 with rfl | rfl <;> simp [hlen, eq_comm (b := e)]
      · rw [pk2pt_unknown_marker c body h4 h23, Except.error.injEq, eq_comm]
        simp only [List.head?_cons, Option.some.injEq, exists_eq_left', List.length_cons]
        tauto

/-! ### When a command's pseudocode answers an error -/

/-- The commands that answer each error, and when (60_exceptions R112 to R115). The last two errors are the shell's
(R117, R118). -/
def errorCause (i : Instr) (s : State) : CmdError → Prop
  | .invalidCharacter =>
    (i = .b58dec ∨ i = .b58cdec ∨ i = .wifdec) ∧ ∃ ch ∈ inputBytes s, symbolIndex Config.params ch = none
  | .checksumError =>
    (i = .b58cdec ∨ i = .wifdec) ∧
      ∃ p k, b58dec Config.params (inputBytes s) = .ok (p ++ k) ∧ k.length = 4 ∧ cksum Config.params p ≠ k
  | .lengthError =>
    ((i = .b58cdec ∨ i = .wifdec) ∧ ∃ d, b58dec Config.params (inputBytes s) = .ok d ∧ d.length < 4) ∨
    ((∃ c, i = .wifenc c) ∧ s.ilen ≠ 32) ∨
    ((∃ c, i = .sec2pk c) ∧ s.ilen ≠ 32) ∨
    (i = .pk2pt ∧ (s.ilen = 0 ∨ ((inputBytes s).head? = some 0x04 ∧ s.ilen ≠ 65) ∨
      (((inputBytes s).head? = some 0x02 ∨ (inputBytes s).head? = some 0x03) ∧ s.ilen ≠ 33)))
  | .invalidFormatError =>
    (i = .pk2pt ∧ ∃ m, (inputBytes s).head? = some m ∧ m ≠ 0x02 ∧ m ≠ 0x03 ∧ m ≠ 0x04) ∨
    (i = .wifdec ∧ ∃ p, b58cdec Config.params (inputBytes s) = .ok p ∧ p.length ≠ 33 ∧ p.length ≠ 34)
  | .illegalCommand | .capacityError => False

theorem length_inputBytes_eq_iff (s : State) {n : Nat} (hn : n < 2 ^ 16) :
    (inputBytes s).length = n ↔ s.ilen = BitVec.ofNat 16 n := by
  rw [length_inputBytes, ← BitVec.toNat_inj, toNat_ofNat_of_lt hn]

theorem bodyOf_eq_error_iff (i : Instr) (s : State) (e : CmdError) :
    bodyOf i s = .error e ↔ errorCause i s e := by
  cases i with
  | b58enc | b58cenc | pt2pk | recy | hash160 | addr => cases e <;> simp [bodyOf, errorCause]
  | b58dec => rw [bodyOf, map_eq_error_iff, b58dec_eq_error_iff]; cases e <;> simp [errorCause]
  | b58cdec => rw [bodyOf, map_eq_error_iff, b58cdec_eq_error_iff]; cases e <;> simp [errorCause]
  | wifdec =>
    rw [bodyOf, map_eq_error_iff, secretOfWif_eq_error_iff, b58cdec_eq_error_iff]
    cases e <;> simp [errorCause]
  | pk2pt =>
    rw [bodyOf, map_eq_error_iff, pk2pt_eq_error_iff]
    cases e <;> simp [errorCause, -List.length_eq_zero_iff, length_inputBytes_eq_iff]
  | wifenc =>
    rw [bodyOf, map_eq_error_iff, wifOf_eq_error_iff]
    cases e <;> simp [errorCause, length_inputBytes_eq_iff]
  | sec2pk =>
    rw [bodyOf, map_eq_error_iff, pointOfSecret_eq_error_iff]
    cases e <;> simp [errorCause, length_inputBytes_eq_iff]

/-- The causes are causes of the commands that the fourth column of 60_exceptions R111 names. -/
theorem mem_ownErrors_of_errorCause {i : Instr} {s : State} {e : CmdError} (h : errorCause i s e) :
    e ∈ ownErrors i := by
  cases e with
  | invalidCharacter => obtain ⟨rfl | rfl | rfl, -⟩ := h <;> decide
  | checksumError => obtain ⟨rfl | rfl, -⟩ := h <;> decide
  | lengthError =>
    rcases h with ⟨rfl | rfl, -⟩ | ⟨⟨c, rfl⟩, -⟩ | ⟨⟨c, rfl⟩, -⟩ | ⟨rfl, -⟩ <;> simp [ownErrors]
  | invalidFormatError => rcases h with ⟨rfl, -⟩ | ⟨rfl, -⟩ <;> decide
  | illegalCommand | capacityError => exact h.elim

/-- The pseudocode raises neither error of the shell, codes 5 and 6 (60_exceptions R117, R118). -/
theorem code_le_of_errorCause {i : Instr} {s : State} {e : CmdError} (h : errorCause i s e) : e.code ≤ 4 := by
  cases e with
  | invalidCharacter | checksumError | lengthError | invalidFormatError => decide
  | illegalCommand | capacityError => exact h.elim

/-- A command completes with an error, code and `STATUS` given by the error (60_exceptions R116), exactly if it passes
the capacity test and meets the error's cause (R112 to R115). -/
theorem exec_fails_iff_errorCause {e : CmdError} {w : Word16} (he : e ≠ .capacityError)
    (hw : BitVec.ofNat 16 (16 * e.code + 2) = w) (i : Instr) (s : State) :
    (∃ t, exec i s = .next t ∧ FailsWith s t e ∧ t.status = w) ↔ s.fits ∧ errorCause i s e := by
  rw [← bodyOf_eq_error_iff, ← failsWith_runCommand_iff he, exec_eq]
  constructor
  · rintro ⟨t, ht, hfail, -⟩
    cases ht
    exact hfail
  · exact fun hfail => ⟨_, rfl, hfail, hfail.status.trans hw⟩

/-! ### The completion step (30_encoding R57, 60_exceptions R117, R118) -/

theorem step_of_legalWord {s : State} (hnext : s.completesNext) (h : legalWord s.cmdl) :
    ∃ i, step s = .next (runCommand (bodyOf i) s) := by
  obtain ⟨i, hi⟩ := (exists_decode_iff s.cmdl).2 h
  exact ⟨i, by rw [step_of_completesNext hnext, completeStep_of_decode_ok hi]⟩

theorem step_of_not_legalWord {s : State} (hnext : s.completesNext) (h : ¬ legalWord s.cmdl) :
    step s = .next (raise .illegalCommand s) := by
  rw [step_of_completesNext hnext]
  cases hd : decode s.cmdl with
  | ok i => exact absurd ((exists_decode_iff s.cmdl).1 ⟨i, hd⟩) h
  | error r => exact completeStep_of_decode_error hd

/-- Past the capacity test `ERR` is 0 or an error of the pseudocode's, and a result fits `OBUF`. -/
theorem runCommand_of_fits (i : Instr) {s : State} (hfits : s.fits) :
    statusErr (runCommand (bodyOf i) s).status ≤ 4 ∧
      (runCommand (bodyOf i) s).olen.toNat ≤ Config.params.obufCap := by
  cases hbody : bodyOf i s with
  | error e =>
    rw [runCommand_error hfits hbody, raise_status, statusErr_failed]
    exact ⟨code_le_of_errorCause ((bodyOf_eq_error_iff i s e).1 hbody), Nat.zero_le _⟩
  | ok r =>
    rw [runCommand_ok hfits hbody, succeed_status, statusErr_completed, succeed_olen, BitVec.toNat_ofNat]
    exact ⟨Nat.zero_le _, (Nat.mod_le _ _).trans (length_out_le hfits hbody)⟩

/-! ### The obligations -/

/-- Settles O23: the word is decoded before anything else is tested, and no command raises code 5. -/
theorem illegalCommandExactly : Obligations.IllegalCommandExactly := by
  intro s hnext
  refine ⟨fun hillegal => ?_, fun hlegal => ?_⟩
  · have hfail := failsWith_raise .illegalCommand s
    exact ⟨_, step_of_not_legalWord hnext hillegal, hfail, hfail.status⟩
  · obtain ⟨i, hstep⟩ := step_of_legalWord hnext hlegal
    refine ⟨_, hstep, ?_⟩
    by_cases hfits : s.fits
    · have := (runCommand_of_fits i hfits).1
      omega
    · rw [runCommand_capacity (Nat.lt_of_not_le hfits), raise_status, statusErr_failed]
      decide

/-- Settles O24: the capacity test comes before the pseudocode, which does not raise code 6. -/
theorem capacityErrorExactly : Obligations.CapacityErrorExactly := by
  intro s hnext hlegal
  obtain ⟨i, hstep⟩ := step_of_legalWord hnext hlegal
  refine ⟨fun hcap => ?_, fun hfits => ?_⟩
  · rw [runCommand_capacity hcap] at hstep
    have hfail := failsWith_raise .capacityError s
    exact ⟨_, hstep, hfail, hfail.status⟩
  · obtain ⟨herr, holen⟩ := runCommand_of_fits i hfits
    exact ⟨_, hstep, by omega, holen⟩

/-- Settles O25: the cause of code 1 in `errorCause`. -/
theorem invalidCharacterExactly : Obligations.InvalidCharacterExactly :=
  exec_fails_iff_errorCause (e := .invalidCharacter) (by decide) rfl

/-- Settles O26: the cause of code 2 in `errorCause`. -/
theorem checksumErrorExactly : Obligations.ChecksumErrorExactly :=
  exec_fails_iff_errorCause (e := .checksumError) (by decide) rfl

/-- Settles O27: the cause of code 3 in `errorCause`, its four cases in the order of R114. -/
theorem lengthErrorExactly : Obligations.LengthErrorExactly :=
  exec_fails_iff_errorCause (e := .lengthError) (by decide) rfl

/-- Settles O28: the cause of code 4 in `errorCause`, its two cases in the order of R115. -/
theorem invalidFormatErrorExactly : Obligations.InvalidFormatErrorExactly :=
  exec_fails_iff_errorCause (e := .invalidFormatError) (by decide) rfl

/-- Settles O29: the pseudocode answers a result that fits, or an error on its cause; the codes are a table. -/
theorem commandsRaiseOnlyTheirErrors : Obligations.CommandsRaiseOnlyTheirErrors := by
  refine ⟨fun i s hfits => ?_, fun e s t hfail => ?_⟩
  · cases hbody : bodyOf i s with
    | ok r =>
      obtain ⟨t, ht, hdone⟩ := exec_completes hfits hbody
      exact ⟨t, ht, .inl ⟨_, _, _, hdone⟩⟩
    | error e =>
      refine ⟨raise e s, by rw [exec_eq, runCommand_error hfits hbody], .inr ⟨e, ?_, failsWith_raise e s⟩⟩
      exact mem_ownErrors_of_errorCause ((bodyOf_eq_error_iff i s e).1 hbody)
  · rw [hfail.err, hfail.status]
    cases e <;> decide

end Sys2Proof.Machine

/-! PROOFS, reset and hazards (spec 70_reset R130 to R136, 20_memory R43): the event `Reset` and what the first command
after it does; the accesses that the busy window refuses; and that a running command ends, since every early input is
answered by a step that leaves fewer inputs and the command still running. -/

namespace Sys2Proof.Machine

/-! ### The event `Reset` (70_reset R130, R132) -/

/-- `Reset` as the next input is performed whether a command runs or not. -/
theorem step_reset {s : State} {early : Bool} {rest : List Input} (h : s.busy = true → early = true)
    (hi : s.inputs = ⟨early, .reset⟩ :: rest) : step s = .next (resetEvent { s with inputs := rest }) :=
  step_outside h hi

/-- Until a command completes after a reset, all of `OBUF` holds its reset bytes (10_state R23). -/
theorem obufByte_resetEvent (s : State) (i : Nat) : obufByte (resetEvent s) i = 0x00 := by
  rw [obufByte, resetEvent_obufRest, resetEvent_obuf]
  exact Memory.read_nil i

/-- Settles O20: the step is `resetEvent`, whose items are the reset values whatever the state before. -/
theorem resetEventWhole : Obligations.ResetEventWhole := by
  intro s early rest h hi
  exact ⟨_, step_reset h hi, Memory.read_nil, obufByte_resetEvent _, rfl, rfl, rfl, rfl, rfl, busy_resetEvent _,
    by rw [resetEvent_status]; decide, rfl⟩

/-! ### The accesses that the busy window refuses (70_reset R135) -/

/-- Only `STATUS` and `CMD` can be read while a command runs. -/
theorem hostAccess_read_busy {r : Nat} {q : HostReg} {s : State} (hq : HostReg.ofNumber r = some q)
    (hb : s.busy = true) (hr : readableBusy q = false) : hostAccess (.read r) s = .refused .busyAccess := by
  simp only [hostAccess, hostRead, hq, if_pos (And.intro hb hr)]

/-- `BUSY` is tested before the index, so an index outside a buffer is refused under the same name. -/
theorem hostAccess_buffer_busy {s : State} (hb : s.busy = true) (i : Nat) (b : Byte) :
    hostAccess (.writeIbuf i b) s = .refused .busyAccess ∧ hostAccess (.readIbuf i) s = .refused .busyAccess ∧
      hostAccess (.readObuf i) s = .refused .busyAccess :=
  ⟨if_pos hb, if_pos hb, if_pos hb⟩

/-- What the busy window refuses, said once: a missing register under its own name, every other access as busy. -/
theorem hostAccess_refused_busy {a : HostAccess} {s : State} (hb : s.busy = true) (h0 : a ≠ .read 0)
    (h1 : a ≠ .read 1) :
    hostAccess a s = .refused .busyAccess ∨
      (hostAccess a s = .refused .noSuchRegister ∧ ∃ r, 6 ≤ r ∧ (a = .read r ∨ ∃ v, a = .write r v)) := by
  cases a with
  | read r =>
    cases hq : HostReg.ofNumber r with
    | none =>
      have hr := (ofNumber_eq_none r).1 hq
      exact .inr ⟨(hostAccess_noSuchRegister hr 0 s).1, r, hr, .inl rfl⟩
    | some q =>
      cases hr : readableBusy q with
      | false => exact .inl (hostAccess_read_busy hq hb hr)
      | true =>
        rcases number_of_readableBusy hq hr with rfl | rfl
        · exact absurd rfl h0
        · exact absurd rfl h1
  | write r v =>
    cases hq : HostReg.ofNumber r with
    | none =>
      have hr := (ofNumber_eq_none r).1 hq
      exact .inr ⟨(hostAccess_noSuchRegister hr v s).2, r, hr, .inr ⟨v, rfl⟩⟩
    | some q => exact .inl (hostAccess_write_busy hq hb)
  | writeIbuf i b => exact .inl (hostAccess_buffer_busy hb i b).1
  | readIbuf i => exact .inl (hostAccess_buffer_busy hb i 0).2.1
  | readObuf i => exact .inl (hostAccess_buffer_busy hb i 0).2.2

/-- Settles O14: an early input is performed as an access in the busy window, which refuses it. -/
theorem busyWindowRefusesAccess : Obligations.BusyWindowRefusesAccess := by
  intro s a rest hb hi h0 h1
  rw [step_host (fun _ => rfl) hi]
  exact hostAccess_refused_busy (s := { s with inputs := rest }) hb h0 h1

/-! ### Runs of several steps -/

theorem runSteps_succ {k : Nat} {s t : State} (h : step s = .next t) : runSteps (k + 1) s = runSteps k t := by
  simp only [runSteps, h]

/-- The completion step ends the command, whether its word is legal or not (30_encoding R57). -/
theorem completeStep_done (s : State) :
    ∃ t, completeStep s = .next t ∧ t.busy = false ∧ statusDone t.status = true := by
  cases hd : decode s.cmdl with
  | error r => exact ⟨_, completeStep_of_decode_error hd, busy_raise _ s, statusDone_failed _⟩
  | ok i => exact ⟨_, completeStep_of_decode_ok hd, runCommand_done (bodyOf i) s⟩

/-! ### A running command ends (70_reset R136) -/

/-- After at most `n` steps, none of them refused, the running command has completed. -/
def EndsWithin (n : Nat) (s : State) : Prop :=
  ∃ k t, k ≤ n ∧ runSteps k s = .next t ∧ t.busy = false ∧ statusDone t.status = true

theorem EndsWithin.of_step {n : Nat} {s t : State} (hs : step s = .next t) (h : EndsWithin n t) :
    EndsWithin (n + 1) s := by
  obtain ⟨k, u, hk, hrun, hu⟩ := h
  exact ⟨k + 1, u, Nat.succ_le_succ hk, (runSteps_succ hs).trans hrun, hu⟩

theorem endsWithin_of_completesNext {s : State} (h : s.completesNext) (n : Nat) : EndsWithin (n + 1) s := by
  obtain ⟨t, ht, hdone⟩ := completeStep_done s
  exact ⟨1, t, Nat.le_add_left 1 n, runSteps_succ ((step_of_completesNext h).trans ht), hdone⟩

/-- An early read of `CMD` or `STATUS` is answered, and only takes the input away from what is to come. -/
theorem step_early_read {s : State} {a : Action} {rest : List Input} (hi : s.inputs = ⟨true, a⟩ :: rest)
    (ha : a = .host (.read 0) ∨ a = .host (.read 1)) : ∃ v, step s = .next (answer v { s with inputs := rest }) := by
  rcases ha with rfl | rfl
  · exact ⟨_, step_read_anyTime (fun _ => rfl) hi (q := .cmd) rfl rfl⟩
  · exact ⟨_, step_read_anyTime (fun _ => rfl) hi (q := .status) rfl rfl⟩

/-- The early inputs are answered one by one; the first that is not early, or the end of the list, lets the command
complete. -/
theorem endsWithin_of_busy (l : List Input) {s : State} (hb : s.busy = true) (hl : s.inputs = l)
    (hreads : ∀ x ∈ l, x.early = true → x.act = .host (.read 0) ∨ x.act = .host (.read 1)) :
    EndsWithin (l.length + 1) s := by
  induction l generalizing s with
  | nil => exact endsWithin_of_completesNext ((completesNext_iff s).2 ⟨hb, by simp [hl]⟩) _
  | cons x rest ih =>
    obtain ⟨early, a⟩ := x
    cases early with
    | false => exact endsWithin_of_completesNext ((completesNext_iff s).2 ⟨hb, by simp [hl]⟩) _
    | true =>
      obtain ⟨v, hstep⟩ := step_early_read hl (hreads _ List.mem_cons_self rfl)
      have hrest : EndsWithin (rest.length + 1) (answer v { s with inputs := rest }) :=
        ih hb rfl fun x hx => hreads x (List.mem_cons_of_mem _ hx)
      exact hrest.of_step hstep

/-- Settles O6, by induction on the inputs. -/
theorem runningCommandEnds : Obligations.RunningCommandEnds := fun s hb hreads =>
  endsWithin_of_busy s.inputs hb rfl hreads

/-! ### The first command after reset (70_reset R131) -/

/-- Settles O7: the issue step changes no operand, so `B58ENC` runs on the empty input that reset left. -/
theorem firstCommandAfterReset : Obligations.FirstCommandAfterReset := by
  refine ⟨by decide, by decide, ?_⟩
  obtain ⟨u, hissue, hword, hbusy, -, -, hu⟩ :=
    (issueStep { State.reset with inputs := [⟨false, .host (.write 0 0x0001)⟩] } 0x0001 [] (by decide)).1
      ⟨by decide, false, rfl⟩
  have hilen : u.ilen = 0 := congrArg State.ilen hu
  have hinputs : u.inputs = [] := congrArg State.inputs hu
  have hdecode : decode u.cmdl = .ok .b58enc := by
    rw [show u.cmdl = 0x0001 from BitVec.eq_of_toNat_eq hword]
    exact sampleWordsDecode.1
  have hstep : step u = exec .b58enc u := stepRunsDecodedCommand u .b58enc hbusy (by simp [hinputs]) hdecode
  have hinput : inputBytes u = [] := by rw [inputBytes, hilen]; exact memRead_zero _ 0
  have hout : b58enc Config.params (inputBytes u) = [] := by rw [hinput]; exact b58enc_zeros Config.params 0
  obtain ⟨t, ht, hdone⟩ := b58encCompletes u (by rw [State.fits, hilen]; decide)
  rw [hout] at hdone
  exact ⟨t, (runSteps_succ hissue).trans (runSteps_succ (hstep.trans ht)), hdone.olen_eq rfl, hdone.noError,
    hdone.done⟩

end Sys2Proof.Machine
